-- ==== Sys2Proof/Word.lean ====
section
/-! DEFINITION. The word types of the block: bytes, 32-bit bus words and 11-bit bus offsets. -/

namespace Sys2Proof

/-- One byte: a character, a symbol or a byte of the line buffer (10_state.md R31, R33). -/
abbrev Byte := BitVec 8

/-- One 32-bit word: a bus register or a command word (20_memory.md R51, 30_encoding.md R80). -/
abbrev Word := BitVec 32

/-- A byte offset of the bus register space, 0x000 to 0x7FF (20_memory.md R50). -/
abbrev Offset := BitVec 11

/-- The 2-bit field WSEL of a command word (30_encoding.md R82). -/
abbrev WSel := BitVec 2

end Sys2Proof
end

