-- ==== Sys2Proof/Syntax.lean ====
section
/-! DEFINITION. The ten commands of the block, one constructor per row of spec/opcode_table.json.
The one field of a command word that is not its opcode is WSEL (30_encoding.md R80, R86). -/

namespace Sys2Proof

/-- A command of 30_encoding.md R81 with its width select field WSEL (R82). -/
inductive Instr where
  | nop (wsel : WSel)
  | rev (wsel : WSel)
  | enc (wsel : WSel)
  | dec (wsel : WSel)
  | xenc (wsel : WSel)
  | xdec (wsel : WSel)
  | pack (wsel : WSel)
  | unpack (wsel : WSel)
  | eval (wsel : WSel)
  | clrerr (wsel : WSel)
deriving DecidableEq, Repr

/-- The WSEL field of a command. -/
def Instr.wsel : Instr → WSel
  | .nop w => w
  | .rev w => w
  | .enc w => w
  | .dec w => w
  | .xenc w => w
  | .xdec w => w
  | .pack w => w
  | .unpack w => w
  | .eval w => w
  | .clrerr w => w

end Sys2Proof
end

