-- ==== Sys2Proof/WellFormed.lean ====
section
/-! DEFINITION. The one check on a command: its WSEL is not the reserved 0b11 (30_encoding.md R82). -/

namespace Sys2Proof

/-- A command the block has: its WSEL is 0b00, 0b01 or 0b10. A word with WSEL 0b11 is an
IllegalCommand and no command (30_encoding.md R82, R84). -/
abbrev Instr.WellFormed (i : Instr) : Prop := i.wsel ≠ 0b11#2

end Sys2Proof
end

