-- ==== Sys2Proof/Decode.lean ====
section
/-! DEFINITION. The decoder of 30_encoding.md R88, total on all 2^32 command words, and the encoder
written from the same table (R80, R81). -/

namespace Sys2Proof

/-- Why a command word is no command. Every one of these is an IllegalCommand (30_encoding.md R84,
R85). -/
inductive DecodeError where
  /-- A bit of RSV, bits 31 to 10, is 1 (R84). -/
  | reservedBits
  /-- WSEL is 0b11 (R84). -/
  | reservedWidth
  /-- OP is unassigned (R85). -/
  | unassignedOpcode
deriving DecidableEq, Repr

/-- RSV, bits 31 to 10 of a command word (30_encoding.md R80). -/
def rsvField (c : Word) : BitVec 22 := c.extractLsb' 10 22

/-- WSEL, bits 9 to 8 of a command word (30_encoding.md R80). -/
def wselField (c : Word) : WSel := c.extractLsb' 8 2

/-- OP, bits 7 to 0 of a command word (30_encoding.md R80). -/
def opField (c : Word) : BitVec 8 := c.extractLsb' 0 8

/-- The command of an opcode (30_encoding.md R81); every value not listed is unassigned. -/
def instrOfOpcode (op : Nat) (wsel : WSel) : Option Instr :=
  match op with
  | 0x00 => some (.nop wsel)
  | 0x01 => some (.rev wsel)
  | 0x02 => some (.enc wsel)
  | 0x03 => some (.dec wsel)
  | 0x04 => some (.xenc wsel)
  | 0x05 => some (.xdec wsel)
  | 0x06 => some (.pack wsel)
  | 0x07 => some (.unpack wsel)
  | 0x08 => some (.eval wsel)
  | 0x0F => some (.clrerr wsel)
  | _ => none

/-- Decoding a command word, total on all words (30_encoding.md R88). -/
def decode (c : Word) : Except DecodeError Instr :=
  if rsvField c ≠ 0 then .error .reservedBits
  else if wselField c = 0b11#2 then .error .reservedWidth
  else
    match instrOfOpcode (opField c).toNat (wselField c) with
    | some i => .ok i
    | none => .error .unassignedOpcode

/-- The opcode of a command (30_encoding.md R81). -/
def opcode : Instr → BitVec 8
  | .nop _ => 0x00#8
  | .rev _ => 0x01#8
  | .enc _ => 0x02#8
  | .dec _ => 0x03#8
  | .xenc _ => 0x04#8
  | .xdec _ => 0x05#8
  | .pack _ => 0x06#8
  | .unpack _ => 0x07#8
  | .eval _ => 0x08#8
  | .clrerr _ => 0x0F#8

/-- The command word of a command: RSV = 0, WSEL, OP, most significant first (30_encoding.md R80). -/
def encode (i : Instr) : Word := 0#22 ++ i.wsel ++ opcode i

/-- The command word whose `nbits` low bits are those of `w` and whose other bits are 0. A command
is one 32-bit word (30_encoding.md R89), so a value above 32 bits is no command word. -/
def wordOfBits (nbits w : Nat) : Option Word :=
  let v := w % 2 ^ nbits
  if v < 2 ^ 32 then some (BitVec.ofNat 32 v) else none

/-- The command the decoder reads from the bits of a row of spec/opcode_table.json. -/
def decodeTableWord (nbits w : Nat) : Option Instr :=
  match wordOfBits nbits w with
  | some c => (decode c).toOption
  | none => none

end Sys2Proof
end

