-- ==== Sys2Proof/Config.lean ====
section
/-! DEFINITION. The fixed parameters of the block (00_scope.md R6) and the width modes.

No free value and no implementation-defined constant is needed: every command and every bus access
has one defined outcome (92_eei_decisions.md D42). The parameters R6 calls OPEN are not the
block's: LATENCY is unobservable (R250), ADDR8_POLICY and COLOR_TABLE are host-level (D32, D13). -/

namespace Sys2Proof

/-- The two word widths of the block (00_scope.md R6, width mode `w`). -/
inductive Width where
  | w8
  | w16
deriving DecidableEq, Repr

namespace Config

/-- LINE_MAX: the bytes of the line buffer (00_scope.md R6, 10_state.md R31). -/
def lineMax : Nat := 256

/-- The entries of the character table, one per byte value (00_scope.md R6, 10_state.md R33). -/
def tableSize : Nat := 256

/-- The base of the symbol codec (00_scope.md R6). -/
def base : Nat := 71

end Config

end Sys2Proof
end

