-- ==== Sys2Proof/Machine/State.lean ====
section
/-! DEFINITION. The state of the block (10_state.md), the host's accesses and the bus's answers
(20_memory.md), the errors of a command (60_exceptions.md R211), and the state after reset
(10_state.md R38).

Registers are stored at the bits the spec implements; their reserved bits hold nothing, read 0 and
ignore writes (DEDUCED from R21, R23, R30, R32; log entry 6; safe). -/

namespace Sys2Proof.Machine

/-- CFG, the configuration register (10_state.md R21). -/
structure Cfg where
  /-- Width mode: 0 = 8-bit, 1 = 16-bit. Bit 0. -/
  mode : BitVec 1
  /-- Leading-bit profile: 0 = ZERO, 1 = ONES. Bit 1. -/
  profile : BitVec 1
  /-- Binary-literal gate threshold. Bits 5 to 2. -/
  gate : BitVec 4
  /-- The byte UNPACK returns on a miss. Bits 15 to 8. -/
  fallback : Byte
deriving DecidableEq, Repr

/-- STATUS, the status register (10_state.md R23). -/
structure Status where
  /-- The error code of the last command that changed STATUS. Bits 3 to 0. -/
  err : BitVec 4
  /-- 1 when that command was an EVAL of an empty line. Bit 4. -/
  empty : BitVec 1
  /-- Set by every error, cleared by CLRERR and reset. Bit 5. -/
  sticky : BitVec 1
deriving DecidableEq, Repr

/-- ERRPOS, the error position register (10_state.md R25). -/
structure ErrPos where
  /-- A byte index into LBUF, or into SYM for DEC and XDEC. Bits 15 to 0. -/
  pos : BitVec 16
  /-- A length in bytes. Bits 31 to 16. -/
  len : BitVec 16
deriving DecidableEq, Repr

/-- The named errors of a command (60_exceptions.md R211). They are outcomes with a next state, not
faults of the model (R210). -/
inductive Err where
  | unknownCharacter
  | unparsableToken
  | bitIndexOutOfRange
  | valueTooLarge
  | invalidSymbol
  | operandRange
  | illegalCommand
deriving DecidableEq, Repr

/-- An error with its span, `raise E(pos, len)` (00_scope.md R9): position and length are 0 when
the rule gives none. -/
structure Raised where
  err : Err
  pos : Nat := 0
  len : Nat := 0
deriving DecidableEq, Repr

/-- The byte memory behind the LBUF and CHARTAB windows: listed (address, byte) pairs, keyed by bus
offset (20_memory.md R57, R59). `Memory.wf` is its canonical form. -/
abbrev Memory := List Host.Cell

/-- The width of a bus access. The block accepts 32-bit accesses only (20_memory.md R52). -/
inductive AccessSize where
  | byte
  | half
  | word
deriving DecidableEq, Repr

/-- One bus access of the host (20_memory.md R52 to R54). A narrow write carries its data in the
low bits of its word; no narrow access is ever accepted. -/
inductive Access where
  | read (size : AccessSize) (off : Offset)
  | write (size : AccessSize) (off : Offset) (v : Word)
deriving DecidableEq, Repr

/-- What the host does to the block (20_memory.md R65). -/
inductive HostEvent where
  /-- One bus access. -/
  | access (a : Access)
  /-- Reset is asserted and released. `lost` are the accesses issued while it is asserted and the
  CMD write in progress when it is asserted, if any (70_reset_and_hazards.md R240, R241). -/
  | reset (lost : List Access)
deriving DecidableEq, Repr

/-- The bus's answer to the host's last access. A bus error is no answer of the model: it refuses
the step (20_memory.md R56). -/
inductive Response where
  /-- No access has been answered since reset. -/
  | none
  /-- A write was accepted. -/
  | accepted
  /-- A read returned this word. -/
  | data (v : Word)
deriving DecidableEq, Repr

/-- The whole machine. Every field down to `mem` is the block's (10_state.md R21 to R33); `pending`
and `response` are the MODEL's own, the host's side of the bus (DESIGN CHOICE, log entries 1 and
2). -/
structure State where
  /-- CFG (R21). -/
  cfg : Cfg
  /-- STATUS (R23). -/
  status : Status
  /-- ERRPOS (R25). -/
  errpos : ErrPos
  /-- OPA, the first operand (R27). -/
  opa : Word
  /-- OPB, the second operand (R28). -/
  opb : Word
  /-- RES, the result (R29). -/
  res : Word
  /-- SYM, bits 23 to 0: SYM0 in 7 to 0, SYM1 in 15 to 8, SYM2 in 23 to 16 (R30). -/
  sym : BitVec 24
  /-- LLEN, bits 8 to 0: the length of the line (R32). -/
  llen : BitVec 9
  /-- LBUF and CHARTAB, by bus offset (R31, R33; 20_memory.md R57, R59). -/
  mem : Memory
  /-- What the host does next, oldest first (20_memory.md R61). -/
  pending : List HostEvent
  /-- The bus's answer to the host's last access (20_memory.md R53, R54). -/
  response : Response
deriving DecidableEq, Repr

/-- The block has no faults: its errors are outcomes with a next state, "not model faults"
(60_exceptions.md R210), and a bus error is a refused step (20_memory.md R56). Nothing raises a
fault, so the type has no constructor (safe: no step is lost). -/
inductive Fault
deriving DecidableEq, Repr

/-- Why a step is refused. -/
inductive Refusal where
  /-- Raised by `exec` for an instruction without a meaning; no arm raises it. Safe: the model stops
  where the hardware goes on. -/
  | notModelled (mnemonic : String)
  /-- Raised by a bus access that is narrower than 32 bits, misaligned or at an unmapped offset:
  "a refused host step" (20_memory.md R52, R56; log entry 3). Safe: the model stops where the bus
  would answer with an error and the block would keep its state. -/
  | busError (a : Access)
deriving DecidableEq, Repr

/-- The machine right after reset (10_state.md R38, 70_reset_and_hazards.md R240): CFG = 0x0000_2001,
every other register 0, every LBUF byte 0x00 and every CHARTAB entry invalid with CODE 0, which is
the empty list of cells. The model's own fields start with no access pending and none answered
(DESIGN CHOICE, log entries 1 and 2). -/
def State.reset : State where
  cfg := { mode := 1, profile := 0, gate := 0, fallback := 0x20 }
  status := { err := 0, empty := 0, sticky := 0 }
  errpos := { pos := 0, len := 0 }
  opa := 0
  opb := 0
  res := 0
  sym := 0
  llen := 0
  mem := []
  pending := []
  response := .none

end Sys2Proof.Machine
end

