-- ==== Sys2Proof/Machine/Flags.lean ====
section
/-! DEFINITION. Every value a command writes to STATUS and ERRPOS (10_state.md R23 to R25,
60_exceptions.md R211, R213, R214), and the two registers as the host reads them. -/

namespace Sys2Proof.Machine

/-- The error codes (60_exceptions.md R211). -/
def Err.code : Err → BitVec 4
  | .unknownCharacter => 1
  | .unparsableToken => 2
  | .bitIndexOutOfRange => 3
  | .valueTooLarge => 4
  | .invalidSymbol => 5
  | .operandRange => 6
  | .illegalCommand => 7

/-- STATUS after a command that completes: ERR and EMPTY 0, STICKY unchanged (60_exceptions.md
R213). -/
def Status.completed (st : Status) : Status := { err := 0, empty := 0, sticky := st.sticky }

/-- STATUS after an EVAL of an empty line: as `completed` but EMPTY is 1 (60_exceptions.md R213,
42_evaluator.md R174). -/
def Status.emptyLine (st : Status) : Status := { err := 0, empty := 1, sticky := st.sticky }

/-- STATUS after a command that ends with an error (60_exceptions.md R214). It depends on nothing
STATUS held before. -/
def Status.failed (e : Err) : Status := { err := e.code, empty := 0, sticky := 1 }

/-- STATUS after CLRERR (43_control.md R201). -/
def Status.clear : Status := { err := 0, empty := 0, sticky := 0 }

/-- ERRPOS = 0: every outcome but an error with a span (10_state.md R25). -/
def ErrPos.zero : ErrPos := { pos := 0, len := 0 }

/-- ERRPOS of an error's span (60_exceptions.md R214). -/
def ErrPos.ofSpan (pos len : Nat) : ErrPos :=
  { pos := BitVec.ofNat 16 pos, len := BitVec.ofNat 16 len }

/-- STATUS as the host reads it: ERR in 3 to 0, EMPTY in 4, STICKY in 5, the rest 0 (10_state.md
R23). -/
def Status.toWord (st : Status) : Word := 0#26 ++ st.sticky ++ st.empty ++ st.err

/-- ERRPOS as the host reads it: POS in 15 to 0, LEN in 31 to 16 (10_state.md R25). -/
def ErrPos.toWord (p : ErrPos) : Word := p.len ++ p.pos

end Sys2Proof.Machine
end

