-- ==== Sys2Proof/Machine/Ops.lean ====
section
/-! DEFINITION. The named operations over memory and registers, the outcome of a command (completing
and raising an error: the block's whole exception model, 60_exceptions.md R210 to R214, with no entry
and no return, R219, R220), and the view of CFG on the bus. -/

namespace Sys2Proof.Machine

/-! ### Memory -/

/-- What an unlisted address reads as: 0x00, the reset value of every LBUF byte and of every CHARTAB
entry (10_state.md R38). -/
def Memory.unlisted : Byte := 0x00

/-- The byte at an address. -/
def Memory.read : Memory → Nat → Byte
  | [], _ => Memory.unlisted
  | (k, b) :: rest, a => if k = a then b else Memory.read rest a

/-- Put a byte in front of a memory, unless it is what an unlisted address reads as. -/
def Memory.cons (a : Nat) (v : Byte) (m : Memory) : Memory :=
  if v = Memory.unlisted then m else (a, v) :: m

/-- Write one byte, keeping the list sorted and without the bytes an unlisted address reads as. -/
def Memory.write : Memory → Nat → Byte → Memory
  | [], a, v => Memory.cons a v []
  | (k, b) :: rest, a, v =>
    if a < k then Memory.cons a v ((k, b) :: rest)
    else if a = k then Memory.cons a v rest
    else (k, b) :: Memory.write rest a v

/-- The bus offset of LBUF[0] (20_memory.md R51, R57). -/
def lbufBase : Nat := 0x100

/-- The bus offset of CHARTAB[0] (20_memory.md R51, R59). -/
def chartabBase : Nat := 0x400

/-- The address of LBUF[i] (20_memory.md R57). -/
def lbufAddr (i : Nat) : Nat := lbufBase + i

/-- The address of CHARTAB[c], whose one byte is V in bit 7 and CODE in bits 6 to 0 (20_memory.md
R59). -/
def chartabAddr (c : Nat) : Nat := chartabBase + 4 * c

/-- The addresses that hold a byte: the 256 of the line buffer and one per entry of the character
table (20_memory.md R57, R59; the upper three bytes of an entry's word hold nothing). -/
abbrev isStorage (a : Nat) : Prop :=
  (lbufBase ≤ a ∧ a < lbufBase + Config.lineMax) ∨
    (chartabBase ≤ a ∧ a < chartabBase + 4 * Config.tableSize ∧ a % 4 = 0)

/-- The canonical form of memory: addresses strictly rising, no entry equal to what an unlisted
address reads as, and only addresses that hold a byte. Equal memories are equal lists. -/
abbrev Memory.wf (m : Memory) : Prop :=
  m.Pairwise (fun x y => x.1 < y.1) ∧ ∀ c ∈ m, c.2 ≠ Memory.unlisted ∧ isStorage c.1

/-! ### The line buffer and the character table -/

/-- LBUF[i] (10_state.md R31). -/
def lbuf (s : State) (i : Nat) : Byte := s.mem.read (lbufAddr i)

/-- The byte of CHARTAB[c]: V in bit 7, CODE in bits 6 to 0 (20_memory.md R59). -/
def chartab (s : State) (c : Byte) : Byte := s.mem.read (chartabAddr c.toNat)

/-- V of a CHARTAB entry (10_state.md R33). -/
def entryValid (e : Byte) : Bool := e.getLsbD 7

/-- CODE of a CHARTAB entry (10_state.md R33). -/
def entryCode (e : Byte) : BitVec 7 := e.extractLsb' 0 7

/-! ### The outcome of a command -/

/-- A command completes without error (60_exceptions.md R213). -/
def complete (s : State) : State :=
  { s with status := s.status.completed, errpos := ErrPos.zero }

/-- A command completes with the value `v` in RES (10_state.md R29, 60_exceptions.md R213). -/
def completeRes (v : Word) (s : State) : State := complete { s with res := v }

/-- A command completes with the symbols `v` in SYM (10_state.md R30, 60_exceptions.md R213). -/
def completeSym (v : BitVec 24) (s : State) : State := complete { s with sym := v }

/-- An EVAL of an empty line completes: RES is unchanged and EMPTY is 1 (42_evaluator.md R174). -/
def completeEmpty (s : State) : State :=
  { s with status := s.status.emptyLine, errpos := ErrPos.zero }

/-- TAKING AN ERROR: none of the command's writes is committed, and STATUS and ERRPOS record the
error and its span (60_exceptions.md R214). There is no trap entry and no return (R219, R220): the
next command runs normally. -/
def raise (r : Raised) (s : State) : State :=
  { s with status := Status.failed r.err, errpos := ErrPos.ofSpan r.pos r.len }

/-- The one outcome of a command: the state it completes in, or its first error taken
(60_exceptions.md R216). -/
def settle (s : State) : Except Raised State → State
  | .ok t => t
  | .error r => raise r s

/-- The outcome of a word that is no command: IllegalCommand with no span (30_encoding.md R84,
R85). -/
def illegal (s : State) : State := raise { err := .illegalCommand } s

/-! ### CFG on the bus -/

/-- CFG as the host reads it (10_state.md R21): reserved bits 0. -/
def Cfg.toWord (c : Cfg) : Word := 0#16 ++ c.fallback ++ 0#2 ++ c.gate ++ c.profile ++ c.mode

/-- CFG after a bus write of `v` (10_state.md R22): bits 7 to 6 and 31 to 16 are ignored. -/
def Cfg.ofWord (v : Word) : Cfg where
  mode := v.extractLsb' 0 1
  profile := v.extractLsb' 1 1
  gate := v.extractLsb' 2 4
  fallback := v.extractLsb' 8 8

end Sys2Proof.Machine
end

