-- ==== Sys2Proof/Machine/Bus.lean ====
section
/-! DEFINITION. The bus register space (20_memory.md R50 to R59): the register map, what a read
returns and what a write stores. Running the command of a write to CMD is in HostPort.lean. -/

namespace Sys2Proof.Machine

/-- What a mapped, aligned bus offset stands for (20_memory.md R51). -/
inductive Target where
  | cfg
  | status
  | cmd
  | opa
  | opb
  | res
  | sym
  | llen
  | errpos
  /-- Word k of the LBUF window (R57). -/
  | lbufWord (k : Nat)
  /-- Entry c of the CHARTAB window (R59). -/
  | chartabEntry (c : Nat)
deriving DecidableEq, Repr

/-- The register map (20_memory.md R51) at a 4-aligned offset; none is unmapped. -/
def targetAt (off : Nat) : Option Target :=
  match off with
  | 0x000 => some .cfg
  | 0x004 => some .status
  | 0x008 => some .cmd
  | 0x00C => some .opa
  | 0x010 => some .opb
  | 0x014 => some .res
  | 0x018 => some .sym
  | 0x01C => some .llen
  | 0x020 => some .errpos
  | _ =>
    if 0x100 ≤ off ∧ off < 0x200 then some (.lbufWord ((off - 0x100) / 4))
    else if 0x400 ≤ off then some (.chartabEntry ((off - 0x400) / 4))
    else none

/-- The target of an access that the block accepts: 32 bits wide, at an offset that is a multiple of
4 and mapped (20_memory.md R52). Every other access is a bus error (R56). -/
def busTarget (size : AccessSize) (off : Offset) : Option Target :=
  if size = .word ∧ off.toNat % 4 = 0 then targetAt off.toNat else none

/-- The word a read of a target returns (20_memory.md R53, R57, R59); reserved bits and CMD read
0. -/
def readTarget (s : State) : Target → Word
  | .cfg => s.cfg.toWord
  | .status => s.status.toWord
  | .cmd => 0
  | .opa => s.opa
  | .opb => s.opb
  | .res => s.res
  | .sym => 0#8 ++ s.sym
  | .llen => 0#23 ++ s.llen
  | .errpos => s.errpos.toWord
  | .lbufWord k =>
    lbuf s (4 * k + 3) ++ lbuf s (4 * k + 2) ++ lbuf s (4 * k + 1) ++ lbuf s (4 * k)
  | .chartabEntry c => 0#24 ++ s.mem.read (chartabAddr c)

/-- The memory after a write of word k of the LBUF window, its low byte first (20_memory.md R57). -/
def writeLbufWord (m : Memory) (k : Nat) (v : Word) : Memory :=
  (((m.write (lbufAddr (4 * k)) (v.extractLsb' 0 8)).write (lbufAddr (4 * k + 1))
    (v.extractLsb' 8 8)).write (lbufAddr (4 * k + 2)) (v.extractLsb' 16 8)).write
    (lbufAddr (4 * k + 3)) (v.extractLsb' 24 8)

/-- The state after a write of `v` to a target (20_memory.md R54): the writable bits are stored,
STATUS, RES and ERRPOS ignore the write, and CMD holds nothing (10_state.md R26). -/
def writeTarget (s : State) (v : Word) : Target → State
  | .cfg => { s with cfg := Cfg.ofWord v }
  | .status => s
  | .cmd => s
  | .opa => { s with opa := v }
  | .opb => { s with opb := v }
  | .res => s
  | .sym => { s with sym := v.extractLsb' 0 24 }
  | .llen => { s with llen := v.extractLsb' 0 9 }
  | .errpos => s
  | .lbufWord k => { s with mem := writeLbufWord s.mem k v }
  | .chartabEntry c => { s with mem := s.mem.write (chartabAddr c) (v.extractLsb' 0 8) }

end Sys2Proof.Machine
end

