-- ==== Sys2Proof/Machine/Operands.lean ====
section
/-! DEFINITION. The operand forms of the commands: the effective width (30_encoding.md R83), the
symbols of SYM (40_transform.md R101, R120), the character table lookups (10_state.md R35, R36) and
the line EVAL reads (42_evaluator.md R160). Operands are whole unsigned numbers, never truncated
(30_encoding.md R87). -/

namespace Sys2Proof.Machine

/-- The number of bits of a width. -/
def bits : Width → Nat
  | .w8 => 8
  | .w16 => 16

/-- The largest w-bit value, 2^w - 1 (30_encoding.md R83). -/
def maxval (w : Width) : Nat := 2 ^ bits w - 1

/-- L(w), the symbols per word (40_transform.md R101). -/
def symCount : Width → Nat
  | .w8 => 2
  | .w16 => 3

/-- W(c), the effective width of a command (30_encoding.md R83). It is not used for WSEL 0b11. -/
def effWidth (wsel : WSel) (cfg : Cfg) : Width :=
  if wsel = 0b01#2 then .w8
  else if wsel = 0b10#2 then .w16
  else if cfg.mode = 1#1 then .w16
  else .w8

/-- Run the body of a width-dependent command at its effective width. A term with WSEL 0b11 stands
for a word that is an IllegalCommand (30_encoding.md R84; DEDUCED, log entry 5; safe). -/
def withWidth (wsel : WSel) (s : State) (body : Width → Except Raised State) :
    Host.Outcome State Fault Refusal :=
  if wsel = 0b11#2 then .next (illegal s) else .next (settle s (body (effWidth wsel s.cfg)))

/-- Run a command that ignores its width; WSEL 0b11 is still illegal (30_encoding.md R82, R84). -/
def withoutWidth (wsel : WSel) (s : State) (t : State) : Host.Outcome State Fault Refusal :=
  if wsel = 0b11#2 then .next (illegal s) else .next t

/-- OperandRange, with no span (60_exceptions.md R211). -/
def operandRange : Raised := { err := .operandRange }

/-- Check that an operand is at most `max` before going on (30_encoding.md R87). -/
def checkRange {α : Type} (v max : Nat) (rest : Except Raised α) : Except Raised α :=
  if max < v then .error operandRange else rest

/-- Symbol i of SYM, at bits 8i+7 to 8i (10_state.md R30, 40_transform.md R120). -/
def symByte (sym : BitVec 24) (i : Nat) : Byte := sym.extractLsb' (8 * i) 8

/-- The L(w) symbols a decoding command reads: SYM0 first, SYM2 not read at w = 8 (40_transform.md
R120). -/
def symString (w : Width) (sym : BitVec 24) : List Byte :=
  (List.range (symCount w)).map (symByte sym)

/-- SYM holding a string of up to three symbols, the first in bits 7 to 0; a symbol that is not
there is 0x00 (40_transform.md R115). -/
def symOfString (l : List Byte) : BitVec 24 :=
  l.getD 2 0x00#8 ++ l.getD 1 0x00#8 ++ l.getD 0 0x00#8

/-- char_to_code: the CODE of a character that is in the table (10_state.md R35). -/
def charToCode (s : State) (c : Byte) : Option (BitVec 7) :=
  if entryValid (chartab s c) then some (entryCode (chartab s c)) else none

/-- Whether CHARTAB[c] is valid with code `k` (10_state.md R36). -/
def hasCode (s : State) (k : BitVec 7) (c : Byte) : Bool := charToCode s c == some k

/-- The bytes 0x00 to 0xFF in ascending order. -/
def allBytes : List Byte := (List.range Config.tableSize).map (BitVec.ofNat 8)

/-- code_to_char: the lowest byte with code `k`, or the fallback with miss = 1 (10_state.md R36). -/
def codeToChar (s : State) (k : BitVec 7) : Byte × BitVec 1 :=
  match allBytes.find? (hasCode s k) with
  | some c => (c, 0)
  | none => (s.cfg.fallback, 1)

/-- The line EVAL reads: LBUF[0] to LBUF[LLEN-1] and no other byte (42_evaluator.md R160). -/
def line (s : State) : List Byte := (List.range s.llen.toNat).map (lbuf s)

end Sys2Proof.Machine
end

