-- ==== Sys2Proof/Machine/Control.lean ====
section
/-! DEFINITION. The family of 43_control.md: NOP and CLRERR. -/

namespace Sys2Proof.Machine

/-- NOP: write nothing, not even STATUS or ERRPOS (43_control.md R200). -/
def execNop (wsel : WSel) (s : State) : Host.Outcome State Fault Refusal :=
  withoutWidth wsel s s

/-- CLRERR: clear ERR, EMPTY, STICKY and ERRPOS (43_control.md R201). -/
def execClrerr (wsel : WSel) (s : State) : Host.Outcome State Fault Refusal :=
  withoutWidth wsel s { s with status := Status.clear, errpos := ErrPos.zero }

end Sys2Proof.Machine
end

