-- ==== Sys2Proof/Machine/Evaluator.lean ====
section
/-! DEFINITION. The expression evaluator of 42_evaluator.md: EVAL. A line is a list of bytes, the
bytes LBUF[0] to LBUF[LLEN-1]; a span (s, e) of it is `slice line s e`, the bytes s to e-1. -/

namespace Sys2Proof.Machine

/-! ### Byte classes (42_evaluator.md R161, R176) -/

/-- isws: the six whitespace bytes (42_evaluator.md R161). -/
def isWs (b : Byte) : Bool := (0x09 ≤ b.toNat && b.toNat ≤ 0x0D) || b.toNat == 0x20

/-- '/' (42_evaluator.md R176). -/
def chSlash : Byte := 0x2F

/-- '+' (42_evaluator.md R176). -/
def chPlus : Byte := 0x2B

/-- '0' or '1' (42_evaluator.md R164). -/
def isBin (b : Byte) : Bool := b.toNat == 0x30 || b.toNat == 0x31

/-- '0' to '9' (42_evaluator.md R165). -/
def isDigit (b : Byte) : Bool := 0x30 ≤ b.toNat && b.toNat ≤ 0x39

/-- The value of a digit byte. -/
def digitVal (b : Byte) : Nat := b.toNat - 0x30

/-- '0' to '9', 'a' to 'f' or 'A' to 'F' (42_evaluator.md R166). -/
def isHex (b : Byte) : Bool :=
  isDigit b || (0x41 ≤ b.toNat && b.toNat ≤ 0x46) || (0x61 ≤ b.toNat && b.toNat ≤ 0x66)

/-- The value of a hex digit: a-f and A-F are both 10 to 15 (42_evaluator.md R166). -/
def hexVal (b : Byte) : Nat :=
  if isDigit b then digitVal b
  else if b.toNat ≤ 0x46 then b.toNat - 0x41 + 10
  else b.toNat - 0x61 + 10

/-- 'h' or 'H' (42_evaluator.md R166). -/
def isH (b : Byte) : Bool := b.toNat == 0x68 || b.toNat == 0x48

/-- 'b' or 'B' (42_evaluator.md R169). -/
def isB (b : Byte) : Bool := b.toNat == 0x62 || b.toNat == 0x42

/-- Digits read in a base, the most significant first, as an unbounded number (00_scope.md R8). -/
def ofDigits (base : Nat) (ds : List Nat) : Nat := ds.foldl (fun acc d => acc * base + d) 0

/-! ### Stripping (42_evaluator.md R162, R163) -/

/-- Bytes a to z-1 of a line. -/
def slice (l : List Byte) (a z : Nat) : List Byte := (l.take z).drop a

/-- The length of the text before the first "//", or of the whole line when there is none
(42_evaluator.md R162). -/
def textLength : List Byte → Nat
  | [] => 0
  | [_] => 1
  | b :: c :: rest => if b = chSlash ∧ c = chSlash then 0 else 1 + textLength (c :: rest)

/-- A list of bytes without the whitespace at its end. -/
def stripRight (l : List Byte) : List Byte := (l.reverse.dropWhile isWs).reverse

/-- trim(a, z): the span of bytes a to z-1 without whitespace at either end (42_evaluator.md
R163). -/
def trim (l : List Byte) (a z : Nat) : Nat × Nat :=
  let t := slice l a z
  let s := a + (t.takeWhile isWs).length
  (s, s + (stripRight (t.dropWhile isWs)).length)

/-! ### Literals (42_evaluator.md R164 to R168) -/

/-- Rule 1, binary literal: only '0' and '1', and longer than GATE (42_evaluator.md R164). -/
def binLit (gate : Nat) (t : List Byte) : Option Nat :=
  if !t.isEmpty && t.all isBin && decide (gate < t.length) then
    some (ofDigits 2 (t.map digitVal))
  else none

/-- Rule 2, decimal literal (42_evaluator.md R165). -/
def decLit (t : List Byte) : Option Nat :=
  if !t.isEmpty && t.all isDigit then some (ofDigits 10 (t.map digitVal)) else none

/-- Rule 3, hex literal: 'h' or 'H', one or more hex digits and nothing else (42_evaluator.md
R166). -/
def hexLit : List Byte → Option Nat
  | [] => none
  | h :: ds =>
    if isH h && !ds.isEmpty && ds.all isHex then some (ofDigits 16 (ds.map hexVal)) else none

/-- Rule 4, single-character literal: a byte of the character table (42_evaluator.md R167). -/
def charLit (code : Byte → Option (BitVec 7)) : List Byte → Option Nat
  | [c] => (code c).map BitVec.toNat
  | _ => none

/-- lit: rules 1, 2, 3 and 4 in that order, the first that matches (42_evaluator.md R168). -/
def lit (gate : Nat) (code : Byte → Option (BitVec 7)) (t : List Byte) : Option Nat :=
  (binLit gate t).or ((decLit t).or ((hexLit t).or (charLit code t)))

/-! ### Terms and sums (42_evaluator.md R169 to R171) -/

/-- The index N of a bit-index token: 'b' or 'B' and one or more decimal digits (42_evaluator.md
R169). -/
def bitIndex : List Byte → Option Nat
  | [] => none
  | b :: ds =>
    if isB b && !ds.isEmpty && ds.all isDigit then some (ofDigits 10 (ds.map digitVal)) else none

/-- The value of a trimmed, non-empty part at (ps, pe) (42_evaluator.md R170). -/
def term (gate : Nat) (code : Byte → Option (BitVec 7)) (w : Width) (l : List Byte) (ps pe : Nat) :
    Except Raised Nat :=
  match lit gate code (slice l ps pe) with
  | some v => .ok v
  | none =>
    match bitIndex (slice l ps pe) with
    | some n =>
      if n < 1 ∨ bits w < n then .error { err := .bitIndexOutOfRange, pos := ps, len := pe - ps }
      else .ok (2 ^ (n - 1))
    | none => .error { err := .unparsableToken, pos := ps, len := pe - ps }

/-- The raw parts of a text split on every '+': the current part began at `start`, and the bytes
given are those from index `at'` on (42_evaluator.md R171). -/
def rawParts (start at' : Nat) : List Byte → List (Nat × Nat)
  | [] => [(start, at')]
  | b :: rest =>
    if b = chPlus then (start, at') :: rawParts (at' + 1) (at' + 1) rest
    else rawParts start (at' + 1) rest

/-- The value of one raw part at (a, j): trimmed, not empty, and then a term (42_evaluator.md
R171). -/
def partValue (gate : Nat) (code : Byte → Option (BitVec 7)) (w : Width) (l : List Byte)
    (p : Nat × Nat) : Except Raised Nat :=
  let t := trim l p.1 p.2
  if t.1 = t.2 then .error { err := .unparsableToken, pos := p.1, len := 0 }
  else term gate code w l t.1 t.2

/-- The sum of the parts, left to right; the first failing part ends the evaluation
(42_evaluator.md R171). -/
def sumParts (value : Nat × Nat → Except Raised Nat) (acc : Nat) :
    List (Nat × Nat) → Except Raised Nat
  | [] => .ok acc
  | p :: rest =>
    match value p with
    | .ok v => sumParts value (acc + v) rest
    | .error r => .error r

/-- The value of a trimmed, non-empty body at (s, e): rules 1 to 4 on the whole of it, else the sum
of its parts (42_evaluator.md R171). -/
def bodyValue (gate : Nat) (code : Byte → Option (BitVec 7)) (w : Width) (l : List Byte)
    (s e : Nat) : Except Raised Nat :=
  match lit gate code (slice l s e) with
  | some v => .ok v
  | none => sumParts (partValue gate code w l) 0 (rawParts s s (slice l s e))

/-- eval_line: none for an empty line, else the value of its body, at most maxval(w)
(42_evaluator.md R171, R173). -/
def evalLine (gate : Nat) (code : Byte → Option (BitVec 7)) (w : Width) (l : List Byte) :
    Except Raised (Option Nat) :=
  let t := trim l 0 (textLength l)
  if t.1 = t.2 then .ok none
  else
    match bodyValue gate code w l t.1 t.2 with
    | .ok v =>
      if maxval w < v then .error { err := .valueTooLarge, pos := t.1, len := t.2 - t.1 }
      else .ok (some v)
    | .error r => .error r

/-- The state an evaluated line completes in (42_evaluator.md R174). -/
def completeEval (s : State) : Option Nat → State
  | some v => completeRes (BitVec.ofNat 32 v) s
  | none => completeEmpty s

/-- EVAL: evaluate the line in LBUF (42_evaluator.md R174). -/
def execEval (wsel : WSel) (s : State) : Host.Outcome State Fault Refusal :=
  withWidth wsel s fun w =>
    checkRange s.llen.toNat Config.lineMax <|
    match evalLine s.cfg.gate.toNat (charToCode s) w (line s) with
    | .ok r => .ok (completeEval s r)
    | .error r => .error r

end Sys2Proof.Machine
end

