-- ==== Sys2Proof/Machine/Codec.lean ====
section
/-! DEFINITION. Bit reversal and the base-71 codec as functions on numbers and symbol strings
(40_transform.md R100 to R105). -/

namespace Sys2Proof.Machine

/-- The low `n` bits of `x` in reverse order: bit i of the result is bit n-1-i of x (40_transform.md
R102). -/
def reverseBits : Nat → Nat → Nat
  | 0, _ => 0
  | n + 1, x => x % 2 * 2 ^ n + reverseBits n (x / 2)

/-- reverse_w (40_transform.md R102), used for values up to maxval(w) only. -/
def reverseW (w : Width) (x : Nat) : Nat := reverseBits (bits w) x

/-- `n` consecutive byte values from `first` on. -/
def byteRange (first n : Nat) : List Byte := (List.range n).map (fun i => BitVec.ofNat 8 (first + i))

/-- ALPHA, the ordered 71-symbol alphabet (40_transform.md R100): digits, lowercase, uppercase, and
the symbols `! @ $ % ? & < ( )`. -/
def alphabet : List Byte :=
  byteRange 0x30 10 ++ byteRange 0x61 26 ++ byteRange 0x41 26 ++
    [0x21#8, 0x40#8, 0x24#8, 0x25#8, 0x3F#8, 0x26#8, 0x3C#8, 0x28#8, 0x29#8]

/-- ALPHA[d] (40_transform.md R100), used for digits below 71 only. -/
def symbolOf (d : Nat) : Byte := alphabet.getD d 0x00#8

/-- index(b): the index of a symbol, or none when the byte is not in ALPHA (40_transform.md R100). -/
def indexOf (b : Byte) : Option Nat := alphabet.idxOf? b

/-- enc_L: the L base-71 symbols of x, the most significant first (40_transform.md R104), used for
values below 71^L only. -/
def encSymbols : Nat → Nat → List Byte
  | 0, _ => []
  | l + 1, x => encSymbols l (x / Config.base) ++ [symbolOf (x % Config.base)]

/-- The fold of dec_L over the symbols from index `i` on, with the value so far; the first symbol
that is not in ALPHA is an InvalidSymbol at its index with length 1 (40_transform.md R105). -/
def decFrom (i acc : Nat) : List Byte → Except Raised Nat
  | [] => .ok acc
  | b :: rest =>
    match indexOf b with
    | some d => decFrom (i + 1) (acc * Config.base + d) rest
    | none => .error { err := .invalidSymbol, pos := i, len := 1 }

/-- dec_L of a string of L symbols (40_transform.md R105). -/
def decSymbols (l : List Byte) : Except Raised Nat := decFrom 0 0 l

end Sys2Proof.Machine
end

