-- ==== Sys2Proof/Machine/Transform.lean ====
section
/-! DEFINITION. The family of 40_transform.md: REV, ENC, DEC, XENC and XDEC. -/

namespace Sys2Proof.Machine

/-- REV: bit-reverse a w-bit word (40_transform.md R110). -/
def execRev (wsel : WSel) (s : State) : Host.Outcome State Fault Refusal :=
  withWidth wsel s fun w =>
    checkRange s.opa.toNat (maxval w)
      (.ok (completeRes (BitVec.ofNat 32 (reverseW w s.opa.toNat)) s))

/-- ENC: base-71 encode into L(w) symbols; the range is that of the codec, not of the width
(40_transform.md R115). -/
def execEnc (wsel : WSel) (s : State) : Host.Outcome State Fault Refusal :=
  withWidth wsel s fun w =>
    checkRange s.opa.toNat (Config.base ^ symCount w - 1)
      (.ok (completeSym (symOfString (encSymbols (symCount w) s.opa.toNat)) s))

/-- DEC: base-71 decode L(w) symbols, with no range check on the value (40_transform.md R120). -/
def execDec (wsel : WSel) (s : State) : Host.Outcome State Fault Refusal :=
  withWidth wsel s fun w =>
    match decSymbols (symString w s.sym) with
    | .ok v => .ok (completeRes (BitVec.ofNat 32 v) s)
    | .error r => .error r

/-- XENC: bit-reverse a w-bit word, then base-71 encode it (40_transform.md R125). -/
def execXenc (wsel : WSel) (s : State) : Host.Outcome State Fault Refusal :=
  withWidth wsel s fun w =>
    checkRange s.opa.toNat (maxval w)
      (.ok (completeSym (symOfString (encSymbols (symCount w) (reverseW w s.opa.toNat))) s))

/-- XDEC: base-71 decode L(w) symbols, then bit-reverse the w-bit result; an invalid symbol comes
before the range check (40_transform.md R130, 60_exceptions.md R217). -/
def execXdec (wsel : WSel) (s : State) : Host.Outcome State Fault Refusal :=
  withWidth wsel s fun w =>
    match decSymbols (symString w s.sym) with
    | .ok v => checkRange v (maxval w) (.ok (completeRes (BitVec.ofNat 32 (reverseW w v)) s))
    | .error r => .error r

end Sys2Proof.Machine
end

