-- ==== Sys2Proof/Machine/WordPacker.lean ====
section
/-! DEFINITION. The family of 41_word.md: PACK and UNPACK. -/

namespace Sys2Proof.Machine

/-- The leading bits of a 16-bit word by profile (41_word.md R140). -/
def lead (profile : BitVec 1) : BitVec 3 := if profile = 1#1 then 0b111#3 else 0b000#3

/-- The 16-bit word `[leading:3][color:6][char:7]` (41_word.md R141). -/
def composeWord16 (profile : BitVec 1) (col : BitVec 6) (k : BitVec 7) : BitVec 16 :=
  lead profile ++ col ++ k

/-- The 8-bit mode's 13-bit value `[color:6][char:7]`, with no leading bits (41_word.md R142). -/
def composeWord8 (col : BitVec 6) (k : BitVec 7) : BitVec 13 := col ++ k

/-- The word PACK composes at a width, as a number; at w = 8 a value above 255 is a ValueTooLarge
with no span (41_word.md R142, R145). -/
def packWord (w : Width) (cfg : Cfg) (col : BitVec 6) (k : BitVec 7) : Except Raised Nat :=
  match w with
  | .w16 => .ok (composeWord16 cfg.profile col k).toNat
  | .w8 =>
    if 255 < (composeWord8 col k).toNat then .error { err := .valueTooLarge }
    else .ok (composeWord8 col k).toNat

/-- PACK: compose a word from a character and a colour code, the checks in the order of
60_exceptions.md R217 (41_word.md R145). -/
def execPack (wsel : WSel) (s : State) : Host.Outcome State Fault Refusal :=
  withWidth wsel s fun w =>
    checkRange s.opa.toNat 0xFF <|
    checkRange s.opb.toNat 0x3F <|
    match charToCode s (s.opa.extractLsb' 0 8) with
    | none => .error { err := .unknownCharacter }
    | some k =>
      match packWord w s.cfg (s.opb.extractLsb' 0 6) k with
      | .ok v => .ok (completeRes (BitVec.ofNat 32 v) s)
      | .error r => .error r

/-- The colour code of a word: bits 12 to 7, of which an 8-bit word has bit 7 only (41_word.md
R150). -/
def colorField (w : Width) (x : Word) : BitVec 6 :=
  match w with
  | .w16 => x.extractLsb' 7 6
  | .w8 => 0#5 ++ x.extractLsb' 7 1

/-- The leading bits of a word: bits 15 to 13, and 0b000 in an 8-bit word (41_word.md R150). -/
def leadField (w : Width) (x : Word) : BitVec 3 :=
  match w with
  | .w16 => x.extractLsb' 13 3
  | .w8 => 0b000#3

/-- The result of UNPACK: miss flag, character, leading bits, colour code and character code
(41_word.md R150). -/
def unpackWord (w : Width) (s : State) : Word :=
  let k : BitVec 7 := s.opa.extractLsb' 0 7
  let found := codeToChar s k
  0#7 ++ found.2 ++ found.1 ++ leadField w s.opa ++ colorField w s.opa ++ k

/-- UNPACK: decompose a word into its fields and the character it codes; a miss is no error
(41_word.md R150). -/
def execUnpack (wsel : WSel) (s : State) : Host.Outcome State Fault Refusal :=
  withWidth wsel s fun w =>
    checkRange s.opa.toNat (maxval w) (.ok (completeRes (unpackWord w s) s))

end Sys2Proof.Machine
end

