-- ==== Sys2Proof/Machine/Dispatch.lean ====
section
/-! DEFINITION. The meaning of every command of spec/opcode_table.json. -/

namespace Sys2Proof.Machine

/-- Run one command. -/
def exec (i : Instr) (s : State) : Host.Outcome State Fault Refusal :=
  match i with
  | .nop wsel => Sys2Proof.Machine.execNop wsel s
  | .rev wsel => Sys2Proof.Machine.execRev wsel s
  | .enc wsel => Sys2Proof.Machine.execEnc wsel s
  | .dec wsel => Sys2Proof.Machine.execDec wsel s
  | .xenc wsel => Sys2Proof.Machine.execXenc wsel s
  | .xdec wsel => Sys2Proof.Machine.execXdec wsel s
  | .pack wsel => Sys2Proof.Machine.execPack wsel s
  | .unpack wsel => Sys2Proof.Machine.execUnpack wsel s
  | .eval wsel => Sys2Proof.Machine.execEval wsel s
  | .clrerr wsel => Sys2Proof.Machine.execClrerr wsel s

end Sys2Proof.Machine
end

