-- ==== Sys2Proof/Machine/HostPort.lean ====
section
/-! DEFINITION. What the block does on each action of the host: a bus access (20_memory.md R52 to
R56), a command by a write to CMD (R55), a reset (70_reset_and_hazards.md R240, R241). -/

namespace Sys2Proof.Machine

/-- Run the command of a word written to CMD: decode it, and run it or raise IllegalCommand
(20_memory.md R55, 30_encoding.md R84, R85, R88). -/
def runWord (c : Word) (s : State) : Host.Outcome State Fault Refusal :=
  match decode c with
  | .ok i => exec i s
  | .error _ => .next (illegal s)

/-- The bus's answer to an access, given when the access has taken effect (20_memory.md R55). -/
def respond (r : Response) : Host.Outcome State Fault Refusal → Host.Outcome State Fault Refusal
  | .next t => .next { t with response := r }
  | .fault f => .fault f
  | .refused f => .refused f

/-- One bus access, a whole step (20_memory.md R60): a read returns data and changes nothing else
(R53), a write of CMD runs one command (R55), any other write stores the writable bits of its target
(R54), and a bus error refuses the step (R56; log entry 3). -/
def busAccess (s : State) (a : Access) : Host.Outcome State Fault Refusal :=
  match a with
  | .read size off =>
    match busTarget size off with
    | none => .refused (.busError a)
    | some t => .next { s with response := .data (readTarget s t) }
  | .write size off v =>
    match busTarget size off with
    | none => .refused (.busError a)
    | some .cmd => respond .accepted (runWord v s)
    | some t => .next { writeTarget s v t with response := .accepted }

/-- One action of the host. A reset puts every piece of the block's state at its reset value and
loses the accesses issued while it is asserted; what the host does after its release is untouched
(70_reset_and_hazards.md R240, R241; log entry 4). -/
def hostEvent (s : State) : HostEvent → Host.Outcome State Fault Refusal
  | .access a => busAccess s a
  | .reset _ => .next { State.reset with pending := s.pending }

/-- The next step of the machine: the oldest pending action of the host; with none pending the block
does nothing (10_state.md R20, 70_reset_and_hazards.md R242; log entry 8). -/
def nextStep (s : State) : Host.Outcome State Fault Refusal :=
  match s.pending with
  | [] => .next s
  | e :: rest => hostEvent { s with pending := rest } e

/-- The host action that writes a command word to CMD (20_memory.md R55). -/
def cmdWrite (c : Word) : HostEvent := .access (.write .word 0x008 c)

/-- Put a write of the command word with these bits to CMD in front of what the host does next; bits
that no 32-bit word has are dropped. -/
def withCommand (s : State) (nbits w : Nat) : State :=
  { s with pending := cmdWrite (BitVec.ofNat 32 (w % 2 ^ nbits)) :: s.pending }

end Sys2Proof.Machine
end

