-- ==== Sys2Proof/Machine/Step.lean ====
section
/-! DEFINITION. The step of the machine: one action of the host, taken from `pending`. -/

namespace Sys2Proof.Machine

/-- One step: the oldest pending action of the host (10_state.md R20, 20_memory.md R61). -/
def step (s : State) : Host.Outcome State Fault Refusal := nextStep s

/-- `s` with a command ready to run: the block fetches no instructions, a command is the value of a
bus write to CMD (20_memory.md R63), so that write is put in front of what the host does next. -/
def State.withFetchWord (s : State) (nbits w : Nat) : State := withCommand s nbits w

end Sys2Proof.Machine
end

