-- ==== Sys2Proof/Machine/Saturating.lean ====
section
/-! DEFINITION. EVAL with bounded arithmetic: the implementation that 42_evaluator.md R175 allows
instead of unbounded numbers. `exec` does not use it; that its outcome is always that of EVAL is a
statement. -/

namespace Sys2Proof.Machine

/-- A 17-bit saturating accumulator with a sticky overflow bit (42_evaluator.md R175). -/
structure Acc where
  value : BitVec 17
  ovf : Bool
deriving DecidableEq, Repr

/-- The largest value of the accumulator. -/
def accMax : Nat := 2 ^ 17 - 1

/-- The accumulator after an exact result: saturated, with the overflow bit set, when it does not
fit or the bit was set before. -/
def accSet (ovf : Bool) (n : Nat) : Acc :=
  if ovf || decide (accMax < n) then { value := BitVec.ofNat 17 accMax, ovf := true }
  else { value := BitVec.ofNat 17 n, ovf := false }

/-- The accumulator holding 0. -/
def accZero : Acc := accSet false 0

/-- One more digit of a literal. -/
def accDigit (base : Nat) (a : Acc) (d : Nat) : Acc := accSet a.ovf (a.value.toNat * base + d)

/-- One more term of a sum. -/
def accAdd (a b : Acc) : Acc := accSet (a.ovf || b.ovf) (a.value.toNat + b.value.toNat)

/-- Digits read in a base, with saturation. -/
def accDigits (base : Nat) (ds : List Nat) : Acc := ds.foldl (accDigit base) accZero

/-- A bit index that saturates at 17: every index from 17 on is out of range at both widths
(42_evaluator.md R175). -/
def satIndex (ds : List Nat) : Nat := ds.foldl (fun n d => min 17 (n * 10 + d)) 0

/-- Whether the value of an accumulator exceeds maxval(w), or its overflow bit is set
(42_evaluator.md R175). -/
def accTooLarge (w : Width) (a : Acc) : Bool := a.ovf || decide (maxval w < a.value.toNat)

/-- `lit` with saturation (42_evaluator.md R164 to R168). -/
def litSat (gate : Nat) (code : Byte → Option (BitVec 7)) (t : List Byte) : Option Acc :=
  if !t.isEmpty && t.all isBin && decide (gate < t.length) then
    some (accDigits 2 (t.map digitVal))
  else if !t.isEmpty && t.all isDigit then some (accDigits 10 (t.map digitVal))
  else if (hexLit t).isSome then some (accDigits 16 ((t.drop 1).map hexVal))
  else (charLit code t).map (accSet false)

/-- `term` with saturation (42_evaluator.md R170). -/
def termSat (gate : Nat) (code : Byte → Option (BitVec 7)) (w : Width) (l : List Byte)
    (ps pe : Nat) : Except Raised Acc :=
  match litSat gate code (slice l ps pe) with
  | some v => .ok v
  | none =>
    if (bitIndex (slice l ps pe)).isSome then
      let n := satIndex (((slice l ps pe).drop 1).map digitVal)
      if n < 1 ∨ bits w < n then .error { err := .bitIndexOutOfRange, pos := ps, len := pe - ps }
      else .ok (accSet false (2 ^ (n - 1)))
    else .error { err := .unparsableToken, pos := ps, len := pe - ps }

/-- `partValue` with saturation (42_evaluator.md R171). -/
def partValueSat (gate : Nat) (code : Byte → Option (BitVec 7)) (w : Width) (l : List Byte)
    (p : Nat × Nat) : Except Raised Acc :=
  let t := trim l p.1 p.2
  if t.1 = t.2 then .error { err := .unparsableToken, pos := p.1, len := 0 }
  else termSat gate code w l t.1 t.2

/-- `sumParts` with saturation (42_evaluator.md R171). -/
def sumPartsSat (value : Nat × Nat → Except Raised Acc) (acc : Acc) :
    List (Nat × Nat) → Except Raised Acc
  | [] => .ok acc
  | p :: rest =>
    match value p with
    | .ok v => sumPartsSat value (accAdd acc v) rest
    | .error r => .error r

/-- `bodyValue` with saturation (42_evaluator.md R171). -/
def bodyValueSat (gate : Nat) (code : Byte → Option (BitVec 7)) (w : Width) (l : List Byte)
    (s e : Nat) : Except Raised Acc :=
  match litSat gate code (slice l s e) with
  | some v => .ok v
  | none => sumPartsSat (partValueSat gate code w l) accZero (rawParts s s (slice l s e))

/-- `evalLine` with saturation (42_evaluator.md R171, R173, R175). -/
def evalLineSat (gate : Nat) (code : Byte → Option (BitVec 7)) (w : Width) (l : List Byte) :
    Except Raised (Option Nat) :=
  let t := trim l 0 (textLength l)
  if t.1 = t.2 then .ok none
  else
    match bodyValueSat gate code w l t.1 t.2 with
    | .ok a =>
      if accTooLarge w a then .error { err := .valueTooLarge, pos := t.1, len := t.2 - t.1 }
      else .ok (some a.value.toNat)
    | .error r => .error r

/-- EVAL with saturation (42_evaluator.md R174, R175). -/
def execEvalSat (wsel : WSel) (s : State) : Host.Outcome State Fault Refusal :=
  withWidth wsel s fun w =>
    checkRange s.llen.toNat Config.lineMax <|
    match evalLineSat s.cfg.gate.toNat (charToCode s) w (line s) with
    | .ok r => .ok (completeEval s r)
    | .error r => .error r

end Sys2Proof.Machine
end

