-- ==== Sys2Proof/Safety.lean ====
section
/-! DEFINITION. What counts as a legal state and a safe host action, in the terms the statements
use. -/

namespace Sys2Proof.Machine

/-- ERRPOS fits the error code that STATUS holds (10_state.md R25, 60_exceptions.md R211): 0 for no
error and for codes 1, 6 and 7; a symbol index below 3 with length 1 for InvalidSymbol; a span inside
the line buffer for the others. -/
abbrev spanLegal (st : Status) (p : ErrPos) : Prop :=
  (st.err = 0 ∨ st.err = 1 ∨ st.err = 6 ∨ st.err = 7 → p = ErrPos.zero) ∧
  (st.err = 5 → p.pos.toNat < 3 ∧ p.len.toNat = 1) ∧
  (st.err = 2 ∨ st.err = 3 ∨ st.err = 4 → p.pos.toNat + p.len.toNat ≤ Config.lineMax)

/-- STATUS is one that some sequence of commands can leave: no reserved code, an error has set
STICKY, and EMPTY stands only without an error (10_state.md R23, R24; 60_exceptions.md R211, R213,
R214). -/
abbrev statusLegal (st : Status) : Prop :=
  st.err.toNat ≤ 7 ∧ (st.err ≠ 0 → st.sticky = 1 ∧ st.empty = 0)

/-- The invariant of the machine: memory in canonical form, a legal STATUS, an ERRPOS that fits it,
and RES[31:25] = 0, which every command that writes RES keeps (41_word.md R150 is the widest). -/
abbrev Inv (s : State) : Prop :=
  s.mem.wf ∧ statusLegal s.status ∧ spanLegal s.status s.errpos ∧ s.res.toNat < 2 ^ 25

/-- The block accepts an access: 32 bits wide, aligned, and at a mapped offset (20_memory.md R51,
R52). -/
def Access.accepted : Access → Bool
  | .read size off => (busTarget size off).isSome
  | .write size off _ => (busTarget size off).isSome

/-- A host action that gets no bus error (20_memory.md R56). -/
def HostEvent.accepted : HostEvent → Bool
  | .access a => a.accepted
  | .reset _ => true

/-! ### The two outcomes of a command, as 60_exceptions.md R213 and R214 write them -/

/-- STATUS and ERRPOS of a command that completes: ERR, EMPTY and ERRPOS 0, STICKY unchanged
(60_exceptions.md R213). -/
abbrev okState (s : State) : State :=
  { s with
    status := { err := 0, empty := 0, sticky := s.status.sticky }
    errpos := { pos := 0, len := 0 } }

/-- STATUS and ERRPOS of a command that ends with the error of a code, and nothing else changed
(60_exceptions.md R214). -/
abbrev errorState (code : BitVec 4) (pos len : Nat) (s : State) : State :=
  { s with
    status := { err := code, empty := 0, sticky := 1 }
    errpos := { pos := BitVec.ofNat 16 pos, len := BitVec.ofNat 16 len } }

/-- `t` with the host's side of `s`: the two agree on the model's own fields (log entries 1 and 2), so
an equation about it speaks of the block's state only. -/
abbrev hostSideOf (s t : State) : State := { t with pending := s.pending, response := s.response }

/-! ### Lines as text -/

/-- A raw part of a line as text: whitespace, a token, whitespace (42_evaluator.md R163, R171). -/
structure Part where
  before : List Byte
  token : List Byte
  after : List Byte
deriving DecidableEq, Repr

/-- The bytes of a part. -/
def Part.text (p : Part) : List Byte := p.before ++ p.token ++ p.after

/-- The token of a part is what trimming leaves of it, and is not empty (42_evaluator.md R163). -/
abbrev Part.trimmed (p : Part) : Prop :=
  (∀ b ∈ p.before, isWs b) ∧ (∀ b ∈ p.after, isWs b) ∧ p.token ≠ [] ∧
    (∀ b ∈ p.token.head?, isWs b = false) ∧ (∀ b ∈ p.token.getLast?, isWs b = false)

/-- Parts joined by '+' (42_evaluator.md R171). -/
def joinParts : List Part → List Byte
  | [] => []
  | [p] => p.text
  | p :: q :: rest => p.text ++ chPlus :: joinParts (q :: rest)

/-- The value of a token at a width: that of the first literal rule that matches, or 2^(N-1) for a
bit index N in range (42_evaluator.md R168, R169, R170). -/
abbrev TokenValue (gate : Nat) (code : Byte → Option (BitVec 7)) (w : Width) (t : List Byte)
    (v : Nat) : Prop :=
  lit gate code t = some v ∨
    ∃ n, bitIndex t = some n ∧ 1 ≤ n ∧ n ≤ bits w ∧ v = 2 ^ (n - 1)

/-! ### What a command reads -/

/-- Two states agree on the character table (10_state.md R39). -/
abbrev sameTable (s t : State) : Prop := ∀ c : Byte, chartab s c = chartab t c

/-- Two states agree on everything the command reads (10_state.md R39; 42_evaluator.md R160 for the
line). -/
def sameInputs (i : Instr) (s t : State) : Prop :=
  match i with
  | .nop _ => True
  | .clrerr _ => True
  | .rev _ => s.cfg.mode = t.cfg.mode ∧ s.opa = t.opa
  | .enc _ => s.cfg.mode = t.cfg.mode ∧ s.opa = t.opa
  | .xenc _ => s.cfg.mode = t.cfg.mode ∧ s.opa = t.opa
  | .dec _ => s.cfg.mode = t.cfg.mode ∧ s.sym = t.sym
  | .xdec _ => s.cfg.mode = t.cfg.mode ∧ s.sym = t.sym
  | .pack _ =>
    s.cfg.mode = t.cfg.mode ∧ s.cfg.profile = t.cfg.profile ∧ s.opa = t.opa ∧ s.opb = t.opb ∧
      sameTable s t
  | .unpack _ =>
    s.cfg.mode = t.cfg.mode ∧ s.cfg.fallback = t.cfg.fallback ∧ s.opa = t.opa ∧ sameTable s t
  | .eval _ =>
    s.cfg.mode = t.cfg.mode ∧ s.cfg.gate = t.cfg.gate ∧ s.llen = t.llen ∧
      (∀ j < s.llen.toNat, lbuf s j = lbuf t j) ∧ sameTable s t

/-- Whether a command is NOP, the one command that leaves STATUS and ERRPOS alone (10_state.md
R24). -/
def isNop : Instr → Bool
  | .nop _ => true
  | _ => false

/-- Whether a command is CLRERR. -/
def isClrerr : Instr → Bool
  | .clrerr _ => true
  | _ => false

/-- Whether a command may write RES (10_state.md R29, R39). -/
def writesRes : Instr → Bool
  | .rev _ => true
  | .dec _ => true
  | .xdec _ => true
  | .pack _ => true
  | .unpack _ => true
  | .eval _ => true
  | _ => false

/-- Whether a command may write SYM (10_state.md R30, R39). -/
def writesSym : Instr → Bool
  | .enc _ => true
  | .xenc _ => true
  | _ => false

/-! ### The bus register space -/

/-- A 32-bit read of a bus offset. -/
abbrev rd (off : Offset) : HostEvent := .access (.read .word off)

/-- A 32-bit write of a bus offset. -/
abbrev wr (off : Offset) (v : Word) : HostEvent := .access (.write .word off v)

/-- An offset of a register or window word (20_memory.md R51). -/
abbrev isMapped (off : Nat) : Prop :=
  off % 4 = 0 ∧ (off < 0x024 ∨ (0x100 ≤ off ∧ off < 0x200) ∨ (0x400 ≤ off ∧ off < 0x800))

/-- The writable bits of the word at an offset: none of the read-only registers and CMD, all of the
operand registers and of the line buffer, the implemented bits of the others (10_state.md R22, R30,
R32; 20_memory.md R54, R59). -/
def writableMask (off : Nat) : Word :=
  if off = 0x000 then 0x0000FF3F
  else if off = 0x004 ∨ off = 0x008 ∨ off = 0x014 ∨ off = 0x020 then 0
  else if off = 0x018 then 0x00FFFFFF
  else if off = 0x01C then 0x000001FF
  else if 0x400 ≤ off then 0x000000FF
  else 0xFFFFFFFF

end Sys2Proof.Machine
end

