-- ==== Sys2Proof/Certificates/Slice0/Obligations.lean ====
section
/-! DEFINITION. The statements for the provers, in the order of the spec's rules. OBLIGATIONS.json
lists them, the basis of each among its entries. -/

open Sys2Proof Sys2Proof.Machine

/-! ### Reset and the step (70_reset_and_hazards.md, 10_state.md R20, 20_memory.md R55) -/

/-- 10_state.md R38: the value of every piece of the block's state after reset, CMD holding nothing
and reading 0. -/
def Obligations.ResetStateHoldsTheSpecsValues : Prop :=
  State.reset.cfg = { mode := 1, profile := 0, gate := 0, fallback := 0x20 } ∧
  State.reset.cfg.toWord = 0x00002001 ∧
  State.reset.status = { err := 0, empty := 0, sticky := 0 } ∧
  State.reset.errpos = { pos := 0, len := 0 } ∧
  State.reset.opa = 0 ∧ State.reset.opb = 0 ∧ State.reset.res = 0 ∧
  (∀ i < 3, symByte State.reset.sym i = 0x00) ∧ State.reset.llen = 0 ∧
  (∀ i < 256, State.reset.mem.read (0x100 + i) = 0x00) ∧
  (∀ c : Byte, entryValid (chartab State.reset c) = false ∧ entryCode (chartab State.reset c) = 0) ∧
  readTarget State.reset .cmd = 0

/-- A reset leaves every register, every byte of the line buffer and every entry of the character table
at its reset value, whatever accesses were lost while it was asserted, a command in progress among them
(70_reset_and_hazards.md section 1, 10_state.md section 9). THE MODEL'S CHOICES in it: that the
assertion and the release of reset are one step that carries the list of the lost accesses (log entry
4, DESIGN CHOICE), and the last clause, that the model's own field `response` is `none` after it (log
entry 2, DESIGN CHOICE). -/
def Obligations.ResetLeavesTheResetValues : Prop :=
  ∀ (s : State) (lost : List Access) (rest : List HostEvent),
    ∃ t, step { s with pending := .reset lost :: rest } = .next t ∧
      t.cfg = { mode := 1, profile := 0, gate := 0, fallback := 0x20 } ∧
      t.status = { err := 0, empty := 0, sticky := 0 } ∧ t.errpos = { pos := 0, len := 0 } ∧
      t.opa = 0 ∧ t.opb = 0 ∧ t.res = 0 ∧ t.sym = 0 ∧ t.llen = 0 ∧
      (∀ i < 256, lbuf t i = 0x00) ∧
      (∀ c : Byte, entryValid (chartab t c) = false ∧ entryCode (chartab t c) = 0) ∧
      t.response = .none

/-- 10_state.md R20, 70_reset_and_hazards.md R242: with no host action to take, the block does
nothing. -/
def Obligations.IdleStepChangesNothing : Prop :=
  ∀ s : State, s.pending = [] → step s = .next s

/-- 20_memory.md R55: when the host's next action is a write of a command word to CMD, the step is the
meaning of the decoded command, run with that action taken; around it the step only takes the action
off the host's list and records that the write was accepted. -/
def Obligations.StepRunsTheDecodedCommand : Prop :=
  ∀ (s t : State) (c : Word) (i : Instr) (rest : List HostEvent),
    s.pending = cmdWrite c :: rest → decode c = .ok i → i.WellFormed →
    exec i { s with pending := rest } = .next t →
    step s = .next { t with response := .accepted }

/-- 30_encoding.md R84, R85: a word with a bit of RSV set, with WSEL 0b11 or with an unassigned OP is
an IllegalCommand, which changes STATUS and ERRPOS only; every other word is one of the ten
commands. -/
def Obligations.IllegalWordsRaiseIllegalCommand : Prop :=
  ∀ (s : State) (c : Word) (rest : List HostEvent),
    ((c.toNat / 1024 ≠ 0 ∨ c.toNat / 256 % 4 = 3 ∨
        c.toNat % 256 ∉ [0x00, 0x01, 0x02, 0x03, 0x04, 0x05, 0x06, 0x07, 0x08, 0x0F]) →
      ∃ t, step { s with pending := cmdWrite c :: rest } = .next t ∧
        hostSideOf s t = { s with
          status := { err := 7, empty := 0, sticky := 1 }
          errpos := { pos := 0, len := 0 } }) ∧
    ((c.toNat / 1024 = 0 ∧ c.toNat / 256 % 4 ≠ 3 ∧
        c.toNat % 256 ∈ [0x00, 0x01, 0x02, 0x03, 0x04, 0x05, 0x06, 0x07, 0x08, 0x0F]) →
      ∃ i, decode c = .ok i)

/-! ### Encoding (30_encoding.md) -/

/-- 30_encoding.md R80, R81, R88: decoding and encoding agree on all words: a word decodes to a
command exactly when the command is well-formed and its encoding is that word. -/
def Obligations.DecodeAgreesWithEncode : Prop :=
  ∀ (c : Word) (i : Instr), decode c = .ok i ↔ i.WellFormed ∧ encode i = c

/-- 30_encoding.md R81, R82, R90: words of the spec's own text decode to the commands it names. -/
def Obligations.SpecWordsDecodeToTheirCommands : Prop :=
  decode 0x00000201#32 = .ok (.rev 0b10#2) ∧
  decode 0x00000102#32 = .ok (.enc 0b01#2) ∧
  decode 0x00000204#32 = .ok (.xenc 0b10#2) ∧
  decode 0x00000006#32 = .ok (.pack 0b00#2) ∧
  decode 0x00000008#32 = .ok (.eval 0b00#2) ∧
  decode 0x0000010F#32 = .ok (.clrerr 0b01#2) ∧
  decode 0x00000300#32 = .error .reservedWidth ∧
  decode 0x00000401#32 = .error .reservedBits ∧
  decode 0x00000009#32 = .error .unassignedOpcode

/-- 30_encoding.md R83 and 40_transform.md R101: the effective width of a command word, the largest
value of a width and the symbols per word, with the ranges they cover; a word with WSEL 0b11 is refused
before a width is used. -/
def Obligations.EffectiveWidthOfACommandWord : Prop :=
  (∀ cfg, effWidth 0b01#2 cfg = .w8) ∧
  (∀ cfg, effWidth 0b10#2 cfg = .w16) ∧
  (∀ cfg, cfg.mode = 1#1 → effWidth 0b00#2 cfg = .w16) ∧
  (∀ cfg, cfg.mode = 0#1 → effWidth 0b00#2 cfg = .w8) ∧
  bits .w8 = 8 ∧ bits .w16 = 16 ∧ maxval .w8 = 255 ∧ maxval .w16 = 65535 ∧
  symCount .w8 = 2 ∧ symCount .w16 = 3 ∧
  71 ^ symCount .w16 = 357911 ∧ 65536 ≤ 71 ^ symCount .w16 ∧
  71 ^ symCount .w8 = 5041 ∧ 256 ≤ 71 ^ symCount .w8 ∧
  (∀ c : Word, c.extractLsb' 8 2 = 0b11#2 → ∀ i, decode c ≠ .ok i)

/-! ### Bit reversal and the codec (40_transform.md section 1) -/

/-- 40_transform.md R100: the alphabet's table, its 71 distinct bytes, and index as its inverse. -/
def Obligations.AlphabetIsTheSpecsTable : Prop :=
  (∀ i < 10, (symbolOf i).toNat = 0x30 + i) ∧
  (∀ i < 26, (symbolOf (10 + i)).toNat = 0x61 + i) ∧
  (∀ i < 26, (symbolOf (36 + i)).toNat = 0x41 + i) ∧
  (symbolOf 62, symbolOf 63, symbolOf 64, symbolOf 65, symbolOf 66, symbolOf 67, symbolOf 68,
      symbolOf 69, symbolOf 70) =
    (0x21#8, 0x40#8, 0x24#8, 0x25#8, 0x3F#8, 0x26#8, 0x3C#8, 0x28#8, 0x29#8) ∧
  alphabet.length = 71 ∧ alphabet.Nodup ∧
  (∀ i < 71, indexOf (symbolOf i) = some i) ∧
  (∀ b : Byte, indexOf b = none ↔ ∀ i < 71, symbolOf i ≠ b)

/-- 40_transform.md R102: bit i of the reversed word is bit w-1-i of the word, and the result is a
w-bit value. -/
def Obligations.ReverseMirrorsTheBits : Prop :=
  ∀ (w : Width) (x : Nat), x ≤ maxval w →
    reverseW w x ≤ maxval w ∧
    ∀ i < bits w, (reverseW w x).testBit i = x.testBit (bits w - 1 - i)

/-- 40_transform.md R103: reversal is its own inverse, a bijection on the w-bit values, fixes 0 and
maxval(w), takes 1 to 2^(w-1) and keeps the number of 1 bits. -/
def Obligations.ReverseIsASelfInverseBijection : Prop :=
  ∀ w : Width,
    (∀ x ≤ maxval w, reverseW w (reverseW w x) = x) ∧
    Set.BijOn (reverseW w) (Set.Iic (maxval w)) (Set.Iic (maxval w)) ∧
    reverseW w 0 = 0 ∧ reverseW w (maxval w) = maxval w ∧ reverseW w 1 = 2 ^ (bits w - 1) ∧
    ∀ x ≤ maxval w,
      (List.range (bits w)).countP (fun i => (reverseW w x).testBit i) =
        (List.range (bits w)).countP (fun i => x.testBit i)

/-- 40_transform.md R104: the encoding has L symbols, and symbol j from the left is that of digit
L-1-j of x in base 71. -/
def Obligations.EncodingIsPositional : Prop :=
  ∀ l x : Nat, x < 71 ^ l →
    (encSymbols l x).length = l ∧
    ∀ j < l, (encSymbols l x)[j]? = some (symbolOf (x / 71 ^ (l - 1 - j) % 71))

/-- 40_transform.md R105: a string of symbols decodes to the number whose base-71 digits they are,
below 71^L and for up to three symbols in 19 bits; otherwise the first invalid symbol in reading order
is an InvalidSymbol at its index with length 1. -/
def Obligations.DecodingFoldsOrNamesTheFirstInvalidSymbol : Prop :=
  (∀ ds : List Nat, (∀ d ∈ ds, d < 71) →
    decSymbols (ds.map symbolOf) = .ok (∑ i ∈ Finset.range ds.length, ds.getD i 0 * 71 ^ (ds.length - 1 - i)) ∧
    ∑ i ∈ Finset.range ds.length, ds.getD i 0 * 71 ^ (ds.length - 1 - i) ≤ 71 ^ ds.length - 1 ∧
    (ds.length ≤ 3 → ∑ i ∈ Finset.range ds.length, ds.getD i 0 * 71 ^ (ds.length - 1 - i) < 2 ^ 19)) ∧
  (∀ (ds : List Nat) (b : Byte) (rest : List Byte), (∀ d ∈ ds, d < 71) → indexOf b = none →
    decSymbols (ds.map symbolOf ++ b :: rest) =
      .error { err := .invalidSymbol, pos := ds.length, len := 1 })

/-- 40_transform.md R106: the three round-trip laws of the codec. -/
def Obligations.CodecRoundTrips : Prop :=
  (∀ l x : Nat, x < 71 ^ l → decSymbols (encSymbols l x) = .ok x) ∧
  (∀ ds : List Nat, (∀ d ∈ ds, d < 71) →
    ∃ x, decSymbols (ds.map symbolOf) = .ok x ∧ encSymbols ds.length x = ds.map symbolOf) ∧
  (∀ (w : Width) (x : Nat), x ≤ maxval w →
    ∃ y, decSymbols (encSymbols (symCount w) (reverseW w x)) = .ok y ∧ reverseW w y = x)

/-! ### The transform commands (40_transform.md section 2) -/

/-- 10_state.md section 5, 40_transform.md section 2: SYM0, SYM1 and SYM2, the symbols the statements
on ENC, DEC, XENC and XDEC speak of, are bits 7 to 0, 15 to 8 and 23 to 16 of SYM. -/
def Obligations.SymbolsAreTheBytesOfSym : Prop :=
  ∀ (y : BitVec 24), ∀ i < 3, (symByte y i).toNat = y.toNat / 256 ^ i % 256

/-- 40_transform.md R110: REV reverses the w bits of OPA into RES; an operand above maxval(w) is an
OperandRange. Nothing else changes. -/
def Obligations.RevReversesOpaIntoRes : Prop :=
  ∀ (wsel : WSel) (s : State), wsel ≠ 0b11#2 →
    encode (.rev wsel) = BitVec.ofNat 32 (0x001 + 0x100 * wsel.toNat) ∧
    (s.opa.toNat ≤ maxval (effWidth wsel s.cfg) →
      ∃ r : Word, exec (.rev wsel) s = .next (okState { s with res := r }) ∧
        ∀ i, r.getLsbD i = (decide (i < bits (effWidth wsel s.cfg)) &&
          s.opa.getLsbD (bits (effWidth wsel s.cfg) - 1 - i))) ∧
    (maxval (effWidth wsel s.cfg) < s.opa.toNat →
      exec (.rev wsel) s = .next (errorState 6 0 0 s))

/-- 40_transform.md R115: ENC writes the L(w) base-71 symbols of OPA to SYM, the first in bits 7 to 0,
and 0x00 to SYM2 when L = 2; a value of 71^L or more is an OperandRange. Nothing else changes. -/
def Obligations.EncWritesTheSymbolsOfOpa : Prop :=
  ∀ (wsel : WSel) (s : State), wsel ≠ 0b11#2 →
    let n := symCount (effWidth wsel s.cfg)
    encode (.enc wsel) = BitVec.ofNat 32 (0x002 + 0x100 * wsel.toNat) ∧
    (s.opa.toNat ≤ 71 ^ n - 1 →
      ∃ y : BitVec 24, exec (.enc wsel) s = .next (okState { s with sym := y }) ∧
        (∀ j < n, symByte y j = symbolOf (s.opa.toNat / 71 ^ (n - 1 - j) % 71)) ∧
        (∀ j, n ≤ j → symByte y j = 0x00#8)) ∧
    (71 ^ n - 1 < s.opa.toNat → exec (.enc wsel) s = .next (errorState 6 0 0 s))

/-- 40_transform.md R120: DEC writes to RES the number whose base-71 digits are the first L(w)
symbols of SYM, with no check against maxval(w); the first symbol that is not in the alphabet is an
InvalidSymbol at its index with length 1. Nothing else changes. -/
def Obligations.DecWritesTheValueOfTheSymbols : Prop :=
  ∀ (wsel : WSel) (s : State), wsel ≠ 0b11#2 →
    let n := symCount (effWidth wsel s.cfg)
    encode (.dec wsel) = BitVec.ofNat 32 (0x003 + 0x100 * wsel.toNat) ∧
    (∀ ds : List Nat, ds.length = n → (∀ d ∈ ds, d < 71) →
      (∀ j < n, symByte s.sym j = symbolOf (ds.getD j 0)) →
      exec (.dec wsel) s = .next (okState { s with
        res := BitVec.ofNat 32 (∑ j ∈ Finset.range n, ds.getD j 0 * 71 ^ (n - 1 - j)) })) ∧
    (∀ j < n, indexOf (symByte s.sym j) = none →
      (∀ k < j, indexOf (symByte s.sym k) ≠ none) →
      exec (.dec wsel) s = .next (errorState 5 j 1 s))

/-- 40_transform.md R125: XENC writes the base-71 symbols of the reversed w-bit OPA to SYM; an operand
above maxval(w) is an OperandRange. Nothing else changes. -/
def Obligations.XencWritesTheSymbolsOfReversedOpa : Prop :=
  ∀ (wsel : WSel) (s : State), wsel ≠ 0b11#2 →
    let w := effWidth wsel s.cfg
    let n := symCount w
    encode (.xenc wsel) = BitVec.ofNat 32 (0x004 + 0x100 * wsel.toNat) ∧
    (s.opa.toNat ≤ maxval w →
      ∃ (r : Nat) (y : BitVec 24), exec (.xenc wsel) s = .next (okState { s with sym := y }) ∧
        r ≤ maxval w ∧ (∀ i < bits w, r.testBit i = s.opa.getLsbD (bits w - 1 - i)) ∧
        (∀ j < n, symByte y j = symbolOf (r / 71 ^ (n - 1 - j) % 71)) ∧
        (∀ j, n ≤ j → symByte y j = 0x00#8)) ∧
    (maxval w < s.opa.toNat → exec (.xenc wsel) s = .next (errorState 6 0 0 s))

/-- 40_transform.md R130: XDEC decodes the first L(w) symbols of SYM and writes the reversed value to
RES; the first invalid symbol is an InvalidSymbol, and only then a value above maxval(w) an
OperandRange. Nothing else changes. -/
def Obligations.XdecWritesTheReversedValueOfTheSymbols : Prop :=
  ∀ (wsel : WSel) (s : State), wsel ≠ 0b11#2 →
    let w := effWidth wsel s.cfg
    let n := symCount w
    encode (.xdec wsel) = BitVec.ofNat 32 (0x005 + 0x100 * wsel.toNat) ∧
    (∀ ds : List Nat, ds.length = n → (∀ d ∈ ds, d < 71) →
      (∀ j < n, symByte s.sym j = symbolOf (ds.getD j 0)) →
      let v := ∑ j ∈ Finset.range n, ds.getD j 0 * 71 ^ (n - 1 - j)
      (v ≤ maxval w →
        ∃ r : Word, exec (.xdec wsel) s = .next (okState { s with res := r }) ∧
          ∀ i, r.getLsbD i = (decide (i < bits w) && v.testBit (bits w - 1 - i))) ∧
      (maxval w < v → exec (.xdec wsel) s = .next (errorState 6 0 0 s))) ∧
    (∀ j < n, indexOf (symByte s.sym j) = none →
      (∀ k < j, indexOf (symByte s.sym k) ≠ none) →
      exec (.xdec wsel) s = .next (errorState 5 j 1 s))

/-- 40_transform.md R106, R130 on the machine: for every w-bit OPA the host may send XENC and XDEC at
one width and read the value back from RES. -/
def Obligations.XencThenXdecReturnsTheOperand : Prop :=
  ∀ (wsel wsel' : WSel) (s : State), wsel ≠ 0b11#2 → wsel' ≠ 0b11#2 →
    effWidth wsel' s.cfg = effWidth wsel s.cfg → s.opa.toNat ≤ maxval (effWidth wsel s.cfg) →
    ∃ t u v : State,
      step { s with pending :=
        [cmdWrite (encode (.xenc wsel)), cmdWrite (encode (.xdec wsel')), rd 0x014] } = .next t ∧
      step t = .next u ∧ step u = .next v ∧ v.response = .data s.opa ∧ v.status.err = 0 ∧
      v.pending = []

/-- 40_transform.md R110 (corner cases): REV of the result of REV gives the operand back. -/
def Obligations.RevTwiceGivesTheOperandBack : Prop :=
  ∀ (wsel : WSel) (s : State), wsel ≠ 0b11#2 → s.opa.toNat ≤ maxval (effWidth wsel s.cfg) →
    ∃ t u : State, exec (.rev wsel) s = .next t ∧ exec (.rev wsel) { t with opa := t.res } = .next u ∧
      u.res = s.opa

/-! ### The word packer (41_word.md) -/

/-- 41_word.md R145: PACK composes leading bits, colour code and character code into RES; its checks
are made in the order OPA, OPB, character, 8-bit fit. The entry of a character is the byte at 0x400 +
4c, V its bit 7 and CODE its bits 6 to 0. Nothing else changes. -/
def Obligations.PackComposesTheWord : Prop :=
  ∀ (wsel : WSel) (s : State), wsel ≠ 0b11#2 →
    let w := effWidth wsel s.cfg
    let entry := (s.mem.read (0x400 + 4 * s.opa.toNat)).toNat
    encode (.pack wsel) = BitVec.ofNat 32 (0x006 + 0x100 * wsel.toNat) ∧
    (s.opa.toNat ≤ 0xFF → s.opb.toNat ≤ 0x3F → 128 ≤ entry → (w = .w16 ∨ s.opb.toNat ≤ 1) →
      exec (.pack wsel) s = .next (okState { s with
        res := BitVec.ofNat 32 ((if w = .w16 ∧ s.cfg.profile = 1#1 then 0xE000 else 0) +
          128 * s.opb.toNat + (entry - 128)) })) ∧
    (0xFF < s.opa.toNat → exec (.pack wsel) s = .next (errorState 6 0 0 s)) ∧
    (s.opa.toNat ≤ 0xFF → 0x3F < s.opb.toNat → exec (.pack wsel) s = .next (errorState 6 0 0 s)) ∧
    (s.opa.toNat ≤ 0xFF → s.opb.toNat ≤ 0x3F → entry < 128 →
      exec (.pack wsel) s = .next (errorState 1 0 0 s)) ∧
    (s.opa.toNat ≤ 0xFF → s.opb.toNat ≤ 0x3F → 128 ≤ entry → w = .w8 → 2 ≤ s.opb.toNat →
      exec (.pack wsel) s = .next (errorState 4 0 0 s))

/-- 41_word.md R150 with 10_state.md R36: UNPACK writes the word with the character of its code in
bits 23 to 16, the lowest byte whose entry is valid with that code, or CFG.FALLBACK with the miss flag
in bit 24 when there is none; an operand above maxval(w) is an OperandRange. Nothing else changes. -/
def Obligations.UnpackFindsTheLowestCharacter : Prop :=
  ∀ (wsel : WSel) (s : State), wsel ≠ 0b11#2 →
    let w := effWidth wsel s.cfg
    let entry := fun c : Nat => (s.mem.read (0x400 + 4 * c)).toNat
    let wanted := 128 + s.opa.toNat % 128
    encode (.unpack wsel) = BitVec.ofNat 32 (0x007 + 0x100 * wsel.toNat) ∧
    (∀ c ≤ 0xFF, s.opa.toNat ≤ maxval w → entry c = wanted → (∀ d < c, entry d ≠ wanted) →
      exec (.unpack wsel) s = .next (okState { s with
        res := BitVec.ofNat 32 (s.opa.toNat + 0x10000 * c) })) ∧
    (s.opa.toNat ≤ maxval w → (∀ c ≤ 0xFF, entry c ≠ wanted) →
      exec (.unpack wsel) s = .next (okState { s with
        res := BitVec.ofNat 32 (s.opa.toNat + 0x10000 * s.cfg.fallback.toNat + 0x1000000) })) ∧
    (maxval w < s.opa.toNat → exec (.unpack wsel) s = .next (errorState 6 0 0 s))

/-- 41_word.md R145, R150, R142: unpacking at the same width what PACK composed gives the word back
with no miss and a character of the same entry, at most the one packed. -/
def Obligations.UnpackOfPackIsAHit : Prop :=
  ∀ (wsel : WSel) (s t : State), wsel ≠ 0b11#2 → exec (.pack wsel) s = .next t → t.status.err = 0 →
    ∃ (u : State) (c : Nat), exec (.unpack wsel) { t with opa := t.res } = .next u ∧
      u.res.toNat = t.res.toNat + 0x10000 * c ∧ c ≤ s.opa.toNat ∧
      s.mem.read (0x400 + 4 * c) = s.mem.read (0x400 + 4 * s.opa.toNat) ∧ u.status.err = 0

/-! ### The evaluator (42_evaluator.md) -/

/-- 42_evaluator.md R160: the line is LBUF[0] to LBUF[LLEN-1], whatever bytes they are; EVAL depends on
no byte of the line buffer at index LLEN or above, and an LLEN above 256 is an OperandRange. -/
def Obligations.EvalReadsTheFirstLlenBytes : Prop :=
  (∀ s : State, (line s).length = s.llen.toNat ∧
    ∀ i < s.llen.toNat, (line s)[i]? = some (s.mem.read (0x100 + i))) ∧
  (∀ (wsel : WSel) (s t : State) (m : Memory),
    (∀ i < s.llen.toNat, m.read (0x100 + i) = s.mem.read (0x100 + i)) →
    (∀ c ≤ 0xFF, m.read (0x400 + 4 * c) = s.mem.read (0x400 + 4 * c)) →
    exec (.eval wsel) s = .next t → exec (.eval wsel) { s with mem := m } = .next { t with mem := m }) ∧
  ∀ (wsel : WSel) (s : State), wsel ≠ 0b11#2 → 256 < s.llen.toNat →
    exec (.eval wsel) s = .next (errorState 6 0 0 s)

/-- 42_evaluator.md R162: the text considered ends at the least index k with "//" at k and k+1, and is
the whole line when there is none. -/
def Obligations.CommentBeginsAtTheFirstDoubleSlash : Prop :=
  ∀ l : List Byte,
    (∀ k, l[k]? = some 0x2F#8 → l[k + 1]? = some 0x2F#8 →
      (∀ j < k, ¬(l[j]? = some 0x2F#8 ∧ l[j + 1]? = some 0x2F#8)) → textLength l = k) ∧
    ((∀ k, ¬(l[k]? = some 0x2F#8 ∧ l[k + 1]? = some 0x2F#8)) → textLength l = l.length)

/-- 42_evaluator.md R161, R163: the whitespace bytes, and trim as the span between the least index
that is no whitespace and the greatest. -/
def Obligations.TrimRemovesWhitespaceAtBothEnds : Prop :=
  (∀ b : Byte, isWs b = true ↔ b ∈ [0x09#8, 0x0A#8, 0x0B#8, 0x0C#8, 0x0D#8, 0x20#8]) ∧
  ∀ (l : List Byte) (a z : Nat), a ≤ z → z ≤ l.length →
    let s := (trim l a z).1
    let e := (trim l a z).2
    a ≤ s ∧ s ≤ e ∧ e ≤ z ∧
    (∀ j, a ≤ j → j < s → ∀ b, l[j]? = some b → isWs b = true) ∧
    (s = z ∨ ∀ b, l[s]? = some b → isWs b = false) ∧
    (∀ j, e ≤ j → j < z → ∀ b, l[j]? = some b → isWs b = true) ∧
    (e = s ∨ ∀ b, l[e - 1]? = some b → isWs b = false)

/-- 42_evaluator.md R164: a binary literal is a token of '0' and '1' only, longer than GATE, and its
value is read in base 2, most significant first. -/
def Obligations.BinaryLiteralValue : Prop :=
  ∀ (gate : Nat) (t : List Byte) (v : Nat), t ≠ [] →
    (binLit gate t = some v ↔
      (∀ b ∈ t, b = 0x30#8 ∨ b = 0x31#8) ∧ gate < t.length ∧
      v = ∑ i ∈ Finset.range t.length, ((t.getD i 0).toNat - 0x30) * 2 ^ (t.length - 1 - i))

/-- 42_evaluator.md R165: a decimal literal is a token of digits only, read in base 10; a token of '0'
and '1' only is read in base 10 exactly when the gate stopped rule 1. -/
def Obligations.DecimalLiteralValue : Prop :=
  ∀ (gate : Nat) (code : Byte → Option (BitVec 7)) (t : List Byte) (v : Nat), t ≠ [] →
    (decLit t = some v ↔
      (∀ b ∈ t, 0x30 ≤ b.toNat ∧ b.toNat ≤ 0x39) ∧
      v = ∑ i ∈ Finset.range t.length, ((t.getD i 0).toNat - 0x30) * 10 ^ (t.length - 1 - i)) ∧
    ((∀ b ∈ t, b = 0x30#8 ∨ b = 0x31#8) → t.length ≤ gate → lit gate code t = decLit t) ∧
    ((∀ b ∈ t, b = 0x30#8 ∨ b = 0x31#8) → gate < t.length → lit gate code t = binLit gate t)

/-- 42_evaluator.md R166: a hex literal is 'h' or 'H' and one or more hex digits of either case and
nothing else, read in base 16. -/
def Obligations.HexLiteralValue : Prop :=
  ∀ (t : List Byte) (v : Nat),
    hexLit t = some v ↔
      ∃ (h : Byte) (ds : List Byte) (ns : List Nat), t = h :: ds ∧ (h = 0x68#8 ∨ h = 0x48#8) ∧
        ds ≠ [] ∧
        List.Forall₂ (fun b n => (n < 10 ∧ b.toNat = 0x30 + n) ∨
          (10 ≤ n ∧ n < 16 ∧ (b.toNat = 0x41 + (n - 10) ∨ b.toNat = 0x61 + (n - 10)))) ds ns ∧
        v = ∑ i ∈ Finset.range ns.length, ns.getD i 0 * 16 ^ (ns.length - 1 - i)

/-- 42_evaluator.md R167: a character literal is a token of one byte that is in the character table, and
its value is the CODE of its entry, the byte at 0x400 + 4c with V in bit 7. As a term of one byte, and as
a line of one byte that is no whitespace, EVAL gives a digit its digit value, whatever its entry; any other byte in the table its
CODE; and any byte that is not in the table an UnparsableToken, never an UnknownCharacter: over the
byte, or of length 0 for a line '+', whose parts are empty. Nothing else changes. -/
def Obligations.CharacterLiteralValue : Prop :=
  (∀ (code : Byte → Option (BitVec 7)) (t : List Byte) (v : Nat),
    charLit code t = some v ↔ ∃ (c : Byte) (k : BitVec 7), t = [c] ∧ code c = some k ∧ v = k.toNat) ∧
  (∀ (s : State) (c : Byte) (k : BitVec 7),
    charToCode s c = some k ↔ (s.mem.read (0x400 + 4 * c.toNat)).toNat = 128 + k.toNat) ∧
  (∀ (gate : Nat) (code : Byte → Option (BitVec 7)) (w : Width) (l : List Byte) (at' : Nat) (c : Byte),
    slice l at' (at' + 1) = [c] →
    (0x30 ≤ c.toNat ∧ c.toNat ≤ 0x39 → term gate code w l at' (at' + 1) = .ok (c.toNat - 0x30)) ∧
    (¬(0x30 ≤ c.toNat ∧ c.toNat ≤ 0x39) →
      (∀ k, code c = some k → term gate code w l at' (at' + 1) = .ok k.toNat) ∧
      (code c = none → term gate code w l at' (at' + 1) =
        .error { err := .unparsableToken, pos := at', len := 1 }))) ∧
  ∀ (wsel : WSel) (s : State), wsel ≠ 0b11#2 → s.llen = 1 → isWs (s.mem.read 0x100) = false →
    let c := (s.mem.read 0x100).toNat
    let entry := (s.mem.read (0x400 + 4 * c)).toNat
    (0x30 ≤ c ∧ c ≤ 0x39 →
      exec (.eval wsel) s = .next (okState { s with res := BitVec.ofNat 32 (c - 0x30) })) ∧
    (¬(0x30 ≤ c ∧ c ≤ 0x39) → 128 ≤ entry →
      exec (.eval wsel) s = .next (okState { s with res := BitVec.ofNat 32 (entry - 128) })) ∧
    (¬(0x30 ≤ c ∧ c ≤ 0x39) → entry < 128 →
      exec (.eval wsel) s = .next (errorState 2 0 (if c = 0x2B then 0 else 1) s))

/-- 42_evaluator.md R169: a bit-index token is 'b' or 'B' and one or more decimal digits and nothing
else, its N read in base 10. In any part of a sum, and as a whole line, it is 2^(N-1) for an N from 1 to
w and a BitIndexOutOfRange over the token for N = 0 and N > w. Nothing else changes. -/
def Obligations.BitIndexValue : Prop :=
  (∀ (t : List Byte) (n : Nat),
    bitIndex t = some n ↔
      ∃ (b : Byte) (ds : List Byte), t = b :: ds ∧ (b = 0x62#8 ∨ b = 0x42#8) ∧ ds ≠ [] ∧
        (∀ d ∈ ds, 0x30 ≤ d.toNat ∧ d.toNat ≤ 0x39) ∧
        n = ∑ i ∈ Finset.range ds.length, ((ds.getD i 0).toNat - 0x30) * 10 ^ (ds.length - 1 - i)) ∧
  (∀ (gate : Nat) (code : Byte → Option (BitVec 7)) (w : Width) (l : List Byte) (a n : Nat) (p : Part),
    slice l a (a + p.text.length) = p.text → p.trimmed → bitIndex p.token = some n →
    (1 ≤ n → n ≤ bits w →
      partValue gate code w l (a, a + p.text.length) = .ok (2 ^ (n - 1))) ∧
    (n = 0 ∨ bits w < n →
      partValue gate code w l (a, a + p.text.length) =
        .error { err := .bitIndexOutOfRange, pos := a + p.before.length, len := p.token.length })) ∧
  ∀ (wsel : WSel) (s : State) (n : Nat), wsel ≠ 0b11#2 → s.llen.toNat ≤ 256 →
    bitIndex (line s) = some n →
    (1 ≤ n → n ≤ bits (effWidth wsel s.cfg) →
      exec (.eval wsel) s = .next (okState { s with res := BitVec.ofNat 32 (2 ^ (n - 1)) })) ∧
    (n = 0 ∨ bits (effWidth wsel s.cfg) < n →
      exec (.eval wsel) s = .next (errorState 3 0 s.llen.toNat s))

/-- 42_evaluator.md R168, R170: the first of rules 1 to 4 that matches gives the value; rules 1 and 2
overlap on tokens of '0' and '1' only, rule 4 overlaps them on one-digit tokens only, rule 3 overlaps
none, and no token is both a literal and a bit index. -/
def Obligations.LiteralRulesAreTriedInOrder : Prop :=
  ∀ (gate : Nat) (code : Byte → Option (BitVec 7)) (t : List Byte), t ≠ [] →
    (∀ v, binLit gate t = some v → lit gate code t = some v ∧ (decLit t).isSome) ∧
    (∀ v, binLit gate t = none → decLit t = some v → lit gate code t = some v) ∧
    (∀ v, hexLit t = some v →
      lit gate code t = some v ∧ binLit gate t = none ∧ decLit t = none ∧ charLit code t = none) ∧
    (∀ v, binLit gate t = none → decLit t = none → charLit code t = some v →
      lit gate code t = some v) ∧
    (binLit gate t = none → decLit t = none → hexLit t = none → charLit code t = none →
      lit gate code t = none) ∧
    ((charLit code t).isSome → (decLit t).isSome → ∃ b, t = [b] ∧ isDigit b = true) ∧
    ((bitIndex t).isSome → lit gate code t = none)

/-- 42_evaluator.md R174: an LLEN above 256 is an OperandRange; a line of whitespace only, or of
whitespace before a "//" comment, completes with EMPTY = 1 and RES unchanged. -/
def Obligations.EvalOfAnEmptyOrTooLongLine : Prop :=
  ∀ (wsel : WSel) (s : State), wsel ≠ 0b11#2 →
    encode (.eval wsel) = BitVec.ofNat 32 (0x008 + 0x100 * wsel.toNat) ∧
    (256 < s.llen.toNat → exec (.eval wsel) s = .next (errorState 6 0 0 s)) ∧
    (∀ k ≤ s.llen.toNat, s.llen.toNat ≤ 256 → (∀ j < k, isWs (lbuf s j) = true) →
      (k = s.llen.toNat ∨
        k + 1 < s.llen.toNat ∧ lbuf s k = 0x2F#8 ∧ lbuf s (k + 1) = 0x2F#8) →
      exec (.eval wsel) s = .next
        { s with
          status := { err := 0, empty := 1, sticky := s.status.sticky }
          errpos := { pos := 0, len := 0 } })

/-- 42_evaluator.md R171, R173, R174: a line whose text, without its comment and the whitespace around
it, is one token that is a literal or a bit index in range completes with its value in RES, or is a
ValueTooLarge over the token when the value exceeds maxval(w). Nothing else changes. -/
def Obligations.EvalOfOneToken : Prop :=
  ∀ (wsel : WSel) (s : State) (p : Part) (comment : List Byte) (v : Nat), wsel ≠ 0b11#2 →
    s.llen.toNat ≤ 256 → line s = p.text ++ comment → textLength (line s) = p.text.length →
    p.trimmed →
    TokenValue s.cfg.gate.toNat (charToCode s) (effWidth wsel s.cfg) p.token v →
    (v ≤ maxval (effWidth wsel s.cfg) →
      exec (.eval wsel) s = .next (okState { s with res := BitVec.ofNat 32 v })) ∧
    (maxval (effWidth wsel s.cfg) < v →
      exec (.eval wsel) s = .next (errorState 4 p.before.length p.token.length s))

/-- 42_evaluator.md R171, R173, R174: a line of two or more '+'-joined parts, each a literal or a bit
index in range with whitespace around it, completes with the sum of their values in RES, or is a
ValueTooLarge over the trimmed line when the sum exceeds maxval(w). Nothing else changes. -/
def Obligations.EvalOfASum : Prop :=
  ∀ (wsel : WSel) (s : State) (p : Part) (ps : List Part) (vs : List Nat) (comment : List Byte),
    wsel ≠ 0b11#2 → s.llen.toNat ≤ 256 → ps ≠ [] →
    line s = joinParts (p :: ps) ++ comment →
    textLength (line s) = (joinParts (p :: ps)).length →
    (∀ q ∈ p :: ps, q.trimmed ∧ chPlus ∉ q.token) →
    List.Forall₂ (fun q v => TokenValue s.cfg.gate.toNat (charToCode s) (effWidth wsel s.cfg) q.token v)
      (p :: ps) vs →
    (vs.sum ≤ maxval (effWidth wsel s.cfg) →
      exec (.eval wsel) s = .next (okState { s with res := BitVec.ofNat 32 vs.sum })) ∧
    (maxval (effWidth wsel s.cfg) < vs.sum →
      exec (.eval wsel) s = .next (errorState 4 p.before.length
        ((joinParts (p :: ps)).length - p.before.length - (ps.getLastD p).after.length) s))

/-- 42_evaluator.md R170, R171, R172 and 60_exceptions.md R217: after parts that are in order, a part
that is no literal ends the evaluation, whatever follows it: an UnparsableToken over its token, or a
BitIndexOutOfRange when it is a bit index of 0 or above the width. Nothing else changes. -/
def Obligations.EvalStopsAtTheFirstBadTerm : Prop :=
  ∀ (wsel : WSel) (s : State) (good : List Part) (bad : Part) (tail comment : List Byte),
    let w := effWidth wsel s.cfg
    let gate := s.cfg.gate.toNat
    let upTo := joinParts (good ++ [bad])
    let at' := upTo.length - bad.after.length - bad.token.length
    wsel ≠ 0b11#2 → s.llen.toNat ≤ 256 →
    line s = upTo ++ tail ++ comment → textLength (line s) = (upTo ++ tail).length →
    (tail = [] ∨ tail.head? = some chPlus) →
    (∀ q ∈ good, q.trimmed ∧ chPlus ∉ q.token ∧ ∃ v, TokenValue gate (charToCode s) w q.token v) →
    bad.trimmed → chPlus ∉ bad.token → lit gate (charToCode s) bad.token = none →
    (bitIndex bad.token = none →
      exec (.eval wsel) s = .next (errorState 2 at' bad.token.length s)) ∧
    (∀ n, bitIndex bad.token = some n → (n = 0 ∨ bits w < n) →
      exec (.eval wsel) s = .next (errorState 3 at' bad.token.length s))

/-- 42_evaluator.md R171, R172: an empty part of a sum, first, inner or last, is an UnparsableToken at
the start of the raw part with length 0, unless the whole text is a '+' that the table holds. Nothing
else changes. -/
def Obligations.EvalOfAnEmptyPart : Prop :=
  ∀ (wsel : WSel) (s : State) (good : List Part) (ws tail comment : List Byte),
    let w := effWidth wsel s.cfg
    let gate := s.cfg.gate.toNat
    wsel ≠ 0b11#2 → s.llen.toNat ≤ 256 → (∀ b ∈ ws, isWs b = true) →
    (good ≠ [] →
      (∀ q ∈ good, q.trimmed ∧ chPlus ∉ q.token ∧ ∃ v, TokenValue gate (charToCode s) w q.token v) →
      (tail = [] ∨ tail.head? = some chPlus) →
      line s = joinParts good ++ [chPlus] ++ ws ++ tail ++ comment →
      textLength (line s) = (joinParts good ++ [chPlus] ++ ws ++ tail).length →
      exec (.eval wsel) s = .next (errorState 2 ((joinParts good).length + 1) 0 s)) ∧
    (line s = ws ++ [chPlus] ++ tail ++ comment →
      textLength (line s) = (ws ++ [chPlus] ++ tail).length →
      ((∃ b ∈ tail, isWs b = false) ∨ charToCode s chPlus = none) →
      exec (.eval wsel) s = .next (errorState 2 ws.length 0 s))

/-- 42_evaluator.md R175: an implementation with a 17-bit saturating accumulator, a sticky overflow
bit and bit indices that saturate at 17 gives the outcome of every EVAL. -/
def Obligations.SaturatingEvalGivesTheSameOutcome : Prop :=
  ∀ (wsel : WSel) (s : State), execEvalSat wsel s = exec (.eval wsel) s

/-! ### The control commands (43_control.md) -/

/-- 43_control.md R200: NOP writes nothing, not even STATUS or ERRPOS; its words are 0x000, 0x100 and
0x200, and 0x300 and every word with a bit of RSV set are an IllegalCommand, not a NOP. -/
def Obligations.NopWritesNothing : Prop :=
  (∀ (wsel : WSel) (s : State), wsel ≠ 0b11#2 →
    encode (.nop wsel) = BitVec.ofNat 32 (0x100 * wsel.toNat) ∧ exec (.nop wsel) s = .next s) ∧
  (∀ (wsel : WSel) (c : Word), decode c = .ok (.nop wsel) →
    c = 0x000#32 ∨ c = 0x100#32 ∨ c = 0x200#32) ∧
  ∀ (c : Word) (s : State), (c = 0x300#32 ∨ c.toNat / 1024 ≠ 0) →
    runWord c s = .next (errorState 7 0 0 s)

/-- 43_control.md R201: CLRERR clears ERR, EMPTY, STICKY and ERRPOS and changes nothing else, and is
the only command that clears STICKY; reset clears it too. -/
def Obligations.ClrerrClearsTheErrorState : Prop :=
  (∀ (wsel : WSel) (s : State), wsel ≠ 0b11#2 →
    encode (.clrerr wsel) = BitVec.ofNat 32 (0x00F + 0x100 * wsel.toNat) ∧
    exec (.clrerr wsel) s = .next
      { s with
        status := { err := 0, empty := 0, sticky := 0 }
        errpos := { pos := 0, len := 0 } }) ∧
  (∀ (i : Instr) (s t : State), exec i s = .next t → s.status.sticky = 1 → t.status.sticky = 0 →
    isClrerr i = true) ∧
  State.reset.status.sticky = 0

/-! ### Rules of the whole machine -/

/-- 10_state.md R24: which commands write STATUS: every command but NOP writes ERR and EMPTY, an error
sets STICKY, a completion leaves it but for CLRERR, and an illegal word is an error like any other. -/
def Obligations.WhichCommandsWriteStatus : Prop :=
  (∀ (i : Instr) (s t : State), i.WellFormed → exec i s = .next t →
    (isNop i = true → t.status = s.status) ∧
    (isNop i = false → t.status.err ≠ 0 → t.status.empty = 0 ∧ t.status.sticky = 1) ∧
    (isNop i = false → isClrerr i = false → t.status.err = 0 → t.status.sticky = s.status.sticky) ∧
    (isClrerr i = true → t.status.sticky = 0) ∧
    (∀ (s' t' : State), isNop i = false → exec i s' = .next t' →
      s' = { s with status := s'.status, errpos := s'.errpos } →
      t'.status.err = t.status.err ∧ t'.status.empty = t.status.empty)) ∧
  ∀ (c : Word) (s : State), (∀ i, decode c ≠ .ok i) →
    runWord c s = .next (errorState 7 0 0 s)

/-- 60_exceptions.md R214, R219: every error is all-or-nothing: the state after it is the state before
the command, but for STATUS and ERRPOS. -/
def Obligations.ErrorsAreAllOrNothing : Prop :=
  ∀ (c : Word) (s t : State), runWord c s = .next t → t.status.err ≠ 0 →
    (∃ wsel, decode c = .ok (.nop wsel) ∧ t = s) ∨
    t = { s with
      status := { err := t.status.err, empty := 0, sticky := 1 }
      errpos := t.errpos }

/-- 10_state.md R39, 60_exceptions.md R210: every command completes or ends with an error, and writes
only RES, SYM, STATUS and ERRPOS, RES and SYM only where R39 says so; every byte of the line buffer
and of the character table reads as before. -/
def Obligations.CommandsWriteOnlyTheirResults : Prop :=
  ∀ (i : Instr) (s : State), ∃ t, exec i s = .next t ∧
    t = { s with res := t.res, sym := t.sym, status := t.status, errpos := t.errpos } ∧
    (writesRes i = false → t.res = s.res) ∧ (writesSym i = false → t.sym = s.sym) ∧
    (∀ a, t.mem.read a = s.mem.read a)

/-- 10_state.md R39, 42_evaluator.md R160: what a command writes depends only on the state R39 says it
reads; EVAL on no byte of the line buffer at index LLEN or above. -/
def Obligations.CommandsDependOnlyOnTheirInputs : Prop :=
  ∀ (i : Instr) (s s' t t' : State), sameInputs i s s' → exec i s = .next t → exec i s' = .next t' →
    (isNop i = false → t.status.err = t'.status.err ∧ t.status.empty = t'.status.empty ∧
      t.errpos = t'.errpos) ∧
    ((t.res = s.res ∧ t'.res = s'.res) ∨ t.res = t'.res) ∧
    ((t.sym = s.sym ∧ t'.sym = s'.sym) ∨ t.sym = t'.sym)

/-- 43_control.md R201, 60_exceptions.md R220: STICKY stays set until CLRERR or reset: a step that
clears it takes a reset or a write of a CLRERR word to CMD. -/
def Obligations.StickyIsClearedOnlyByClrerrOrReset : Prop :=
  ∀ s t : State, step s = .next t → s.status.sticky = 1 → t.status.sticky = 0 →
    ∃ rest, (∃ lost, s.pending = .reset lost :: rest) ∨
      ∃ wsel : WSel, wsel ≠ 0b11#2 ∧ s.pending = cmdWrite (encode (.clrerr wsel)) :: rest

/-- 20_memory.md R54, R55: no command runs except on a write to CMD: no other access changes STATUS,
ERRPOS or RES. -/
def Obligations.OnlyCmdWritesRunCommands : Prop :=
  ∀ (s t : State) (a : Access) (rest : List HostEvent), s.pending = .access a :: rest →
    (∀ c, a ≠ .write .word 0x008 c) → step s = .next t →
    t.status = s.status ∧ t.errpos = s.errpos ∧ t.res = s.res ∧ t.pending = rest

/-- 20_memory.md R52, R56 and 60_exceptions.md R210: a step is refused exactly when the host's next
access is narrow, misaligned or at an unmapped offset; every other step answers a next state. -/
def Obligations.OnlyBusErrorsRefuseAStep : Prop :=
  ∀ s : State,
    (∀ r : Refusal, step s = .refused r ↔
      ∃ (a : Access) (rest : List HostEvent), s.pending = .access a :: rest ∧ r = .busError a ∧
        match a with
        | .read size off => size ≠ .word ∨ ¬ isMapped off.toNat
        | .write size off _ => size ≠ .word ∨ ¬ isMapped off.toNat) ∧
    ((∀ r : Refusal, step s ≠ .refused r) → ∃ t, step s = .next t)

/-! ### The bus register space (20_memory.md, 10_state.md) -/

/-- 10_state.md R22: a bus write of v to CFG sets MODE, PROFILE, GATE and FALLBACK from bits 0, 1, 5
to 2 and 15 to 8, ignores the other bits, starts no command and changes no other register. -/
def Obligations.CfgWriteSetsItsFields : Prop :=
  ∀ (s : State) (v : Word) (rest : List HostEvent),
    ∃ (t : State) (c : Cfg), step { s with pending := wr 0x000 v :: rest } = .next t ∧
      hostSideOf s t = { s with cfg := c } ∧
      c.mode.toNat = v.toNat % 2 ∧ c.profile.toNat = v.toNat / 2 % 2 ∧
      c.gate.toNat = v.toNat / 4 % 16 ∧ c.fallback.toNat = v.toNat / 256 % 256

/-- 20_memory.md R53 and 10_state.md R21 to R32: what a read of each register returns, reserved bits
and CMD reading 0; a read changes nothing but the host's own side. -/
def Obligations.RegisterReadsReturnTheFields : Prop :=
  ∀ (s : State) (rest : List HostEvent),
    let reads := fun (off : Offset) (n : Nat) =>
      step { s with pending := rd off :: rest } =
        .next { s with pending := rest, response := .data (BitVec.ofNat 32 n) }
    reads 0x000 (s.cfg.mode.toNat + 2 * s.cfg.profile.toNat + 4 * s.cfg.gate.toNat +
      256 * s.cfg.fallback.toNat) ∧
    reads 0x004 (s.status.err.toNat + 16 * s.status.empty.toNat + 32 * s.status.sticky.toNat) ∧
    reads 0x008 0 ∧ reads 0x00C s.opa.toNat ∧ reads 0x010 s.opb.toNat ∧ reads 0x014 s.res.toNat ∧
    reads 0x018 s.sym.toNat ∧ reads 0x01C s.llen.toNat ∧
    reads 0x020 (s.errpos.pos.toNat + 65536 * s.errpos.len.toNat)

/-- 20_memory.md R57: the LBUF window, little-endian: a read of word k returns its four bytes, a write
stores all four, every other byte of memory and every register stays as it was, and a narrower access
is a bus error. -/
def Obligations.LbufWindowIsLittleEndian : Prop :=
  ∀ (s : State) (off : Offset) (k : Nat) (v : Word) (rest : List HostEvent), s.mem.wf →
    k ≤ 63 → off.toNat = 0x100 + 4 * k →
    (∃ t, step { s with pending := rd off :: rest } = .next t ∧ hostSideOf s t = s ∧
      t.response = .data (BitVec.ofNat 32 ((lbuf s (4 * k)).toNat + 0x100 * (lbuf s (4 * k + 1)).toNat +
        0x10000 * (lbuf s (4 * k + 2)).toNat + 0x1000000 * (lbuf s (4 * k + 3)).toNat))) ∧
    ∃ (t : State) (m : Memory), step { s with pending := wr off v :: rest } = .next t ∧
      hostSideOf s t = { s with mem := m } ∧
      (∀ j < 4, (m.read (0x100 + 4 * k + j)).toNat = v.toNat / 256 ^ j % 256) ∧
      (∀ a, (a < 0x100 + 4 * k ∨ 0x100 + 4 * k + 4 ≤ a) → m.read a = s.mem.read a) ∧
      ∀ size : AccessSize, size ≠ .word →
        step { s with pending := .access (.read size off) :: rest } =
          .refused (.busError (.read size off)) ∧
        step { s with pending := .access (.write size off v) :: rest } =
          .refused (.busError (.write size off v))

/-- 20_memory.md R59: the CHARTAB window: entry c is the word at 0x400 + 4c, CODE in bits 6 to 0 and V
in bit 7; the upper bits read 0 and ignore writes; every other byte of memory and every register stays
as it was. -/
def Obligations.ChartabWindowHoldsOneEntryAWord : Prop :=
  ∀ (s : State) (off : Offset) (c : Byte) (v : Word) (rest : List HostEvent), s.mem.wf →
    off.toNat = 0x400 + 4 * c.toNat →
    (∃ t, step { s with pending := rd off :: rest } = .next t ∧ hostSideOf s t = s ∧
      t.response = .data (BitVec.ofNat 32 ((entryCode (chartab s c)).toNat +
        128 * (entryValid (chartab s c)).toNat))) ∧
    ∃ (t : State) (m : Memory), step { s with pending := wr off v :: rest } = .next t ∧
      hostSideOf s t = { s with mem := m } ∧
      m.read (0x400 + 4 * c.toNat) = BitVec.ofNat 8 (v.toNat % 256) ∧
      ∀ a, a ≠ 0x400 + 4 * c.toNat → m.read a = s.mem.read a

/-- 20_memory.md R53, R54: for every offset but CMD's, a read after a write returns the bits written
where they are writable and the old ones elsewhere, and a read of any other offset returns what it
returned before. -/
def Obligations.WritesReadBackAndChangeNoOtherWord : Prop :=
  ∀ (s : State) (off other : Offset) (v : Word), s.mem.wf → isMapped off.toNat →
    isMapped other.toNat → off ≠ 0x008 →
    ∃ (t : State) (old new : Word),
      step { s with pending := [wr off v] } = .next t ∧
      step { s with pending := [rd other] } = .next { s with pending := [], response := .data old } ∧
      step { t with pending := [rd other] } = .next { t with pending := [], response := .data new } ∧
      (other ≠ off → new = old) ∧
      (other = off →
        new = (v &&& writableMask off.toNat) ||| (old &&& ~~~ writableMask off.toNat))

/-! ### The invariant -/

/-- The invariant holds right after reset (10_state.md section 9). That memory has a canonical form is
THE MODEL'S (log entry 7, DEDUCED). -/
def Obligations.InvariantHoldsAtReset : Prop := Inv State.reset

/-- Every step keeps the error code below the reserved ones and with STICKY set, and ERRPOS fitting the
code (10_state.md section 3, 60_exceptions.md sections 1 and 2), and RES[31:25] = 0: RES is written by
REV, DEC and XDEC (40_transform.md section 2), PACK and UNPACK, the widest (41_word.md section 2), and
EVAL (42_evaluator.md sections 3 and 4) only (10_state.md section 9). Every step also keeps memory in
its canonical form, which is THE MODEL'S form of the line buffer and the character table (log entry 7,
DEDUCED). -/
def Obligations.EveryStepKeepsTheInvariant : Prop :=
  ∀ s t : State, Inv s → step s = .next t → Inv t
end

