-- ==== Sys2Proof/Laws/State.lean ====
section
/-! SUPPORT. One lemma per field per update of the state: how a command ends leaves every field, so
that no later proof unfolds a record update. -/

namespace Sys2Proof.Machine

variable (s : State) (r : Raised) (v : Word) (y : BitVec 24)

/-! ### complete -/
@[simp] theorem complete_cfg : (complete s).cfg = s.cfg := rfl
@[simp] theorem complete_status : (complete s).status = s.status.completed := rfl
@[simp] theorem complete_errpos : (complete s).errpos = ErrPos.zero := rfl
@[simp] theorem complete_opa : (complete s).opa = s.opa := rfl
@[simp] theorem complete_opb : (complete s).opb = s.opb := rfl
@[simp] theorem complete_res : (complete s).res = s.res := rfl
@[simp] theorem complete_sym : (complete s).sym = s.sym := rfl
@[simp] theorem complete_llen : (complete s).llen = s.llen := rfl
@[simp] theorem complete_mem : (complete s).mem = s.mem := rfl
@[simp] theorem complete_pending : (complete s).pending = s.pending := rfl
@[simp] theorem complete_response : (complete s).response = s.response := rfl

/-! ### completeRes -/
@[simp] theorem completeRes_cfg : (completeRes v s).cfg = s.cfg := rfl
@[simp] theorem completeRes_status : (completeRes v s).status = s.status.completed := rfl
@[simp] theorem completeRes_errpos : (completeRes v s).errpos = ErrPos.zero := rfl
@[simp] theorem completeRes_opa : (completeRes v s).opa = s.opa := rfl
@[simp] theorem completeRes_opb : (completeRes v s).opb = s.opb := rfl
@[simp] theorem completeRes_res : (completeRes v s).res = v := rfl
@[simp] theorem completeRes_sym : (completeRes v s).sym = s.sym := rfl
@[simp] theorem completeRes_llen : (completeRes v s).llen = s.llen := rfl
@[simp] theorem completeRes_mem : (completeRes v s).mem = s.mem := rfl
@[simp] theorem completeRes_pending : (completeRes v s).pending = s.pending := rfl
@[simp] theorem completeRes_response : (completeRes v s).response = s.response := rfl

/-! ### completeSym -/
@[simp] theorem completeSym_cfg : (completeSym y s).cfg = s.cfg := rfl
@[simp] theorem completeSym_status : (completeSym y s).status = s.status.completed := rfl
@[simp] theorem completeSym_errpos : (completeSym y s).errpos = ErrPos.zero := rfl
@[simp] theorem completeSym_opa : (completeSym y s).opa = s.opa := rfl
@[simp] theorem completeSym_opb : (completeSym y s).opb = s.opb := rfl
@[simp] theorem completeSym_res : (completeSym y s).res = s.res := rfl
@[simp] theorem completeSym_sym : (completeSym y s).sym = y := rfl
@[simp] theorem completeSym_llen : (completeSym y s).llen = s.llen := rfl
@[simp] theorem completeSym_mem : (completeSym y s).mem = s.mem := rfl
@[simp] theorem completeSym_pending : (completeSym y s).pending = s.pending := rfl
@[simp] theorem completeSym_response : (completeSym y s).response = s.response := rfl

/-! ### completeEmpty -/
@[simp] theorem completeEmpty_cfg : (completeEmpty s).cfg = s.cfg := rfl
@[simp] theorem completeEmpty_status : (completeEmpty s).status = s.status.emptyLine := rfl
@[simp] theorem completeEmpty_errpos : (completeEmpty s).errpos = ErrPos.zero := rfl
@[simp] theorem completeEmpty_opa : (completeEmpty s).opa = s.opa := rfl
@[simp] theorem completeEmpty_opb : (completeEmpty s).opb = s.opb := rfl
@[simp] theorem completeEmpty_res : (completeEmpty s).res = s.res := rfl
@[simp] theorem completeEmpty_sym : (completeEmpty s).sym = s.sym := rfl
@[simp] theorem completeEmpty_llen : (completeEmpty s).llen = s.llen := rfl
@[simp] theorem completeEmpty_mem : (completeEmpty s).mem = s.mem := rfl
@[simp] theorem completeEmpty_pending : (completeEmpty s).pending = s.pending := rfl
@[simp] theorem completeEmpty_response : (completeEmpty s).response = s.response := rfl

/-! ### raise -/
@[simp] theorem raise_cfg : (raise r s).cfg = s.cfg := rfl
@[simp] theorem raise_status : (raise r s).status = Status.failed r.err := rfl
@[simp] theorem raise_errpos : (raise r s).errpos = ErrPos.ofSpan r.pos r.len := rfl
@[simp] theorem raise_opa : (raise r s).opa = s.opa := rfl
@[simp] theorem raise_opb : (raise r s).opb = s.opb := rfl
@[simp] theorem raise_res : (raise r s).res = s.res := rfl
@[simp] theorem raise_sym : (raise r s).sym = s.sym := rfl
@[simp] theorem raise_llen : (raise r s).llen = s.llen := rfl
@[simp] theorem raise_mem : (raise r s).mem = s.mem := rfl
@[simp] theorem raise_pending : (raise r s).pending = s.pending := rfl
@[simp] theorem raise_response : (raise r s).response = s.response := rfl

/-! ### illegal -/
theorem illegal_eq_raise : illegal s = raise { err := .illegalCommand } s := rfl
@[simp] theorem illegal_cfg : (illegal s).cfg = s.cfg := rfl
@[simp] theorem illegal_status : (illegal s).status = Status.failed .illegalCommand := rfl
@[simp] theorem illegal_errpos : (illegal s).errpos = ErrPos.ofSpan 0 0 := rfl
@[simp] theorem illegal_opa : (illegal s).opa = s.opa := rfl
@[simp] theorem illegal_opb : (illegal s).opb = s.opb := rfl
@[simp] theorem illegal_res : (illegal s).res = s.res := rfl
@[simp] theorem illegal_sym : (illegal s).sym = s.sym := rfl
@[simp] theorem illegal_llen : (illegal s).llen = s.llen := rfl
@[simp] theorem illegal_mem : (illegal s).mem = s.mem := rfl
@[simp] theorem illegal_pending : (illegal s).pending = s.pending := rfl
@[simp] theorem illegal_response : (illegal s).response = s.response := rfl

/-! ### STATUS and ERRPOS values -/
@[simp] theorem completed_err (st : Status) : st.completed.err = 0 := rfl
@[simp] theorem completed_empty (st : Status) : st.completed.empty = 0 := rfl
@[simp] theorem completed_sticky (st : Status) : st.completed.sticky = st.sticky := rfl
@[simp] theorem emptyLine_err (st : Status) : st.emptyLine.err = 0 := rfl
@[simp] theorem emptyLine_empty (st : Status) : st.emptyLine.empty = 1 := rfl
@[simp] theorem emptyLine_sticky (st : Status) : st.emptyLine.sticky = st.sticky := rfl
@[simp] theorem failed_err (e : Err) : (Status.failed e).err = e.code := rfl
@[simp] theorem failed_empty (e : Err) : (Status.failed e).empty = 0 := rfl
@[simp] theorem failed_sticky (e : Err) : (Status.failed e).sticky = 1 := rfl
@[simp] theorem ofSpan_zero : ErrPos.ofSpan 0 0 = ErrPos.zero := rfl

/-- No error has the code of no error (60_exceptions.md R211). -/
theorem code_ne_zero (e : Err) : e.code ≠ 0 := by cases e <;> decide

/-- No error has a reserved code (60_exceptions.md R211). -/
theorem code_le (e : Err) : e.code.toNat ≤ 7 := by cases e <;> decide

end Sys2Proof.Machine
end

