-- ==== Sys2Proof/Laws/Ops.lean ====
section
/-! SUPPORT. One lemma per shared operation that says once everything it can do. -/

namespace Sys2Proof.Machine

/-- A width-dependent command always answers a next state: IllegalCommand for WSEL 0b11, else the
outcome of its body at the effective width. -/
theorem withWidth_next (wsel : WSel) (s : State) (body : Width → Except Raised State) :
    withWidth wsel s body =
      .next (if wsel = 0b11#2 then illegal s else settle s (body (effWidth wsel s.cfg))) := by
  unfold withWidth; split <;> rfl

/-- A width-dependent command of a well-formed word runs its body. -/
theorem withWidth_of_ne {wsel : WSel} (h : wsel ≠ 0b11#2) (s : State)
    (body : Width → Except Raised State) :
    withWidth wsel s body = .next (settle s (body (effWidth wsel s.cfg))) := by
  rw [withWidth_next, if_neg h]

/-- A command that ignores its width answers its state, or IllegalCommand for WSEL 0b11. -/
theorem withoutWidth_next (wsel : WSel) (s t : State) :
    withoutWidth wsel s t = .next (if wsel = 0b11#2 then illegal s else t) := by
  unfold withoutWidth; split <;> rfl

@[simp] theorem settle_ok (s t : State) : settle s (.ok t) = t := rfl

@[simp] theorem settle_error (s : State) (r : Raised) : settle s (.error r) = raise r s := rfl

/-- A range check that passes goes on. -/
theorem checkRange_of_le {α : Type} {v max : Nat} (h : v ≤ max) (rest : Except Raised α) :
    checkRange v max rest = rest := by
  unfold checkRange; rw [if_neg (by omega)]

/-- A range check that fails is an OperandRange. -/
theorem checkRange_of_lt {α : Type} {v max : Nat} (h : max < v) (rest : Except Raised α) :
    checkRange v max rest = .error operandRange := by
  unfold checkRange; rw [if_pos h]

/-- What a range check can answer. -/
theorem checkRange_cases {α : Type} (v max : Nat) (rest : Except Raised α) :
    (max < v ∧ checkRange v max rest = .error operandRange) ∨
      (v ≤ max ∧ checkRange v max rest = rest) := by
  rcases Nat.lt_or_ge max v with h | h
  · exact .inl ⟨h, checkRange_of_lt h rest⟩
  · exact .inr ⟨h, checkRange_of_le h rest⟩

/-- `decFrom` answers a value or the InvalidSymbol of a symbol of the string. -/
theorem decFrom_cases (l : List Byte) : ∀ i acc : Nat,
    (∃ v, decFrom i acc l = .ok v) ∨
      ∃ j, j < l.length ∧ decFrom i acc l = .error { err := .invalidSymbol, pos := i + j, len := 1 } := by
  induction l with
  | nil => exact fun i acc => .inl ⟨acc, rfl⟩
  | cons b rest ih =>
    intro i acc
    unfold decFrom
    split
    · rcases ih (i + 1) _ with h | ⟨j, hj, h⟩
      · exact .inl h
      · exact .inr ⟨j + 1, by simpa using hj, by rw [h]; congr 2; omega⟩
    · exact .inr ⟨0, by simp, rfl⟩

/-- The bus's answer to an access that goes on. -/
@[simp] theorem respond_next (r : Response) (t : State) :
    respond r (.next t) = .next { t with response := r } := rfl

/-- A word written to CMD always ends in a next state or in what its command's meaning answers. -/
theorem runWord_cases (c : Word) (s : State) :
    (∃ i, decode c = .ok i ∧ runWord c s = exec i s) ∨
      (∃ e, decode c = .error e ∧ runWord c s = .next (illegal s)) := by
  unfold runWord
  split
  · next i h => exact .inl ⟨i, h, rfl⟩
  · next e h => exact .inr ⟨e, h, rfl⟩

/-- Every command answers a next state: an error is an outcome, not a stop (60_exceptions.md
R210). -/
theorem exec_next (i : Instr) (s : State) : ∃ t, exec i s = .next t := by
  cases i <;>
    first
      | exact ⟨_, withWidth_next _ _ _⟩
      | exact ⟨_, withoutWidth_next _ _ _⟩

/-- A word written to CMD always answers a next state. -/
theorem runWord_next (c : Word) (s : State) : ∃ t, runWord c s = .next t := by
  rcases runWord_cases c s with ⟨i, _, h⟩ | ⟨e, _, h⟩
  · rw [h]; exact exec_next i s
  · exact ⟨_, h⟩

/-- With nothing pending the machine does nothing. -/
theorem step_idle {s : State} (h : s.pending = []) : step s = .next s := by
  simp [step, nextStep, h]

/-- With a host action pending the machine takes it. -/
theorem step_event {s : State} {e : HostEvent} {rest : List HostEvent} (h : s.pending = e :: rest) :
    step s = hostEvent { s with pending := rest } e := by
  simp [step, nextStep, h]

end Sys2Proof.Machine
end

