-- ==== Sys2Proof/Laws/Exec.lean ====
section
/-! SUPPORT. What a command can do, said once: every later invariant follows from these cases. -/

namespace Sys2Proof.Machine

/-- The cases of a command: it ends with an error, or is NOP or CLRERR, or completes with a value in
RES, with symbols in SYM, or as an empty line. -/
theorem exec_cases (i : Instr) (s : State) :
    (∃ r, exec i s = .next (raise r s)) ∨
    (isNop i = true ∧ exec i s = .next s) ∨
    (isClrerr i = true ∧
      exec i s = .next { s with status := Status.clear, errpos := ErrPos.zero }) ∨
    (isNop i = false ∧ isClrerr i = false ∧
      ((writesRes i = true ∧ ∃ v, exec i s = .next (completeRes v s)) ∨
        (writesSym i = true ∧ ∃ y, exec i s = .next (completeSym y s)) ∨
        (writesRes i = true ∧ exec i s = .next (completeEmpty s)))) := by
  have viaRes : ∀ {o : Host.Outcome State Fault Refusal} (wsel : WSel)
      (body : Width → Except Raised State), o = withWidth wsel s body →
      (∀ w, (∃ r, body w = .error r) ∨ (∃ v, body w = .ok (completeRes v s)) ∨
        body w = .ok (completeEmpty s)) →
      (∃ r, o = .next (raise r s)) ∨ (∃ v, o = .next (completeRes v s)) ∨
        o = .next (completeEmpty s) := by
    intro o wsel body ho hb
    rw [ho, withWidth_next]
    split
    · exact .inl ⟨_, rfl⟩
    · rcases hb (effWidth wsel s.cfg) with ⟨r, h⟩ | ⟨v, h⟩ | h <;> rw [h]
      · exact .inl ⟨r, rfl⟩
      · exact .inr (.inl ⟨v, rfl⟩)
      · exact .inr (.inr rfl)
  have viaSym : ∀ {o : Host.Outcome State Fault Refusal} (wsel : WSel)
      (body : Width → Except Raised State), o = withWidth wsel s body →
      (∀ w, (∃ r, body w = .error r) ∨ (∃ y, body w = .ok (completeSym y s))) →
      (∃ r, o = .next (raise r s)) ∨ (∃ y, o = .next (completeSym y s)) := by
    intro o wsel body ho hb
    rw [ho, withWidth_next]
    split
    · exact .inl ⟨_, rfl⟩
    · rcases hb (effWidth wsel s.cfg) with ⟨r, h⟩ | ⟨y, h⟩ <;> rw [h]
      · exact .inl ⟨r, rfl⟩
      · exact .inr ⟨y, rfl⟩
  cases i with
  | nop w =>
    rw [exec, execNop, withoutWidth_next]
    split
    · exact .inl ⟨_, rfl⟩
    · exact .inr (.inl ⟨rfl, rfl⟩)
  | clrerr w =>
    rw [exec, execClrerr, withoutWidth_next]
    split
    · exact .inl ⟨_, rfl⟩
    · exact .inr (.inr (.inl ⟨rfl, rfl⟩))
  | enc w =>
    have h := viaSym (o := exec (.enc w) s) w _ (by rw [exec, execEnc]) (fun w => by
      unfold checkRange; split
      · exact .inl ⟨_, rfl⟩
      · exact .inr ⟨_, rfl⟩)
    rcases h with h | h
    · exact .inl h
    · exact .inr (.inr (.inr ⟨rfl, rfl, .inr (.inl ⟨rfl, h⟩)⟩))
  | xenc w =>
    have h := viaSym (o := exec (.xenc w) s) w _ (by rw [exec, execXenc]) (fun w => by
      unfold checkRange; split
      · exact .inl ⟨_, rfl⟩
      · exact .inr ⟨_, rfl⟩)
    rcases h with h | h
    · exact .inl h
    · exact .inr (.inr (.inr ⟨rfl, rfl, .inr (.inl ⟨rfl, h⟩)⟩))
  | rev w =>
    have h := viaRes (o := exec (.rev w) s) w _ (by rw [exec, execRev]) (fun w => by
      unfold checkRange; split
      · exact .inl ⟨_, rfl⟩
      · exact .inr (.inl ⟨_, rfl⟩))
    rcases h with h | h | h
    · exact .inl h
    · exact .inr (.inr (.inr ⟨rfl, rfl, .inl ⟨rfl, h⟩⟩))
    · exact .inr (.inr (.inr ⟨rfl, rfl, .inr (.inr ⟨rfl, h⟩)⟩))
  | dec w =>
    have h := viaRes (o := exec (.dec w) s) w _ (by rw [exec, execDec]) (fun w => by
      split
      · exact .inr (.inl ⟨_, rfl⟩)
      · exact .inl ⟨_, rfl⟩)
    rcases h with h | h | h
    · exact .inl h
    · exact .inr (.inr (.inr ⟨rfl, rfl, .inl ⟨rfl, h⟩⟩))
    · exact .inr (.inr (.inr ⟨rfl, rfl, .inr (.inr ⟨rfl, h⟩)⟩))
  | xdec w =>
    have h := viaRes (o := exec (.xdec w) s) w _ (by rw [exec, execXdec]) (fun w => by
      unfold checkRange; split
      · split
        · exact .inl ⟨_, rfl⟩
        · exact .inr (.inl ⟨_, rfl⟩)
      · exact .inl ⟨_, rfl⟩)
    rcases h with h | h | h
    · exact .inl h
    · exact .inr (.inr (.inr ⟨rfl, rfl, .inl ⟨rfl, h⟩⟩))
    · exact .inr (.inr (.inr ⟨rfl, rfl, .inr (.inr ⟨rfl, h⟩)⟩))
  | pack w =>
    have h := viaRes (o := exec (.pack w) s) w _ (by rw [exec, execPack]) (fun w => by
      unfold checkRange
      split
      · exact .inl ⟨_, rfl⟩
      split
      · exact .inl ⟨_, rfl⟩
      split
      · exact .inl ⟨_, rfl⟩
      split
      · exact .inr (.inl ⟨_, rfl⟩)
      · exact .inl ⟨_, rfl⟩)
    rcases h with h | h | h
    · exact .inl h
    · exact .inr (.inr (.inr ⟨rfl, rfl, .inl ⟨rfl, h⟩⟩))
    · exact .inr (.inr (.inr ⟨rfl, rfl, .inr (.inr ⟨rfl, h⟩)⟩))
  | unpack w =>
    have h := viaRes (o := exec (.unpack w) s) w _ (by rw [exec, execUnpack]) (fun w => by
      unfold checkRange; split
      · exact .inl ⟨_, rfl⟩
      · exact .inr (.inl ⟨_, rfl⟩))
    rcases h with h | h | h
    · exact .inl h
    · exact .inr (.inr (.inr ⟨rfl, rfl, .inl ⟨rfl, h⟩⟩))
    · exact .inr (.inr (.inr ⟨rfl, rfl, .inr (.inr ⟨rfl, h⟩)⟩))
  | eval w =>
    have h := viaRes (o := exec (.eval w) s) w _ (by rw [exec, execEval]) (fun w => by
      unfold checkRange
      split
      · exact .inl ⟨_, rfl⟩
      split
      · next r _ =>
        cases r with
        | none => exact .inr (.inr rfl)
        | some v => exact .inr (.inl ⟨_, rfl⟩)
      · exact .inl ⟨_, rfl⟩)
    rcases h with h | h | h
    · exact .inl h
    · exact .inr (.inr (.inr ⟨rfl, rfl, .inl ⟨rfl, h⟩⟩))
    · exact .inr (.inr (.inr ⟨rfl, rfl, .inr (.inr ⟨rfl, h⟩)⟩))

end Sys2Proof.Machine
end

