-- ==== Sys2Proof/Laws/Memory.lean ====
section
/-! SUPPORT. The laws of the byte memory: a read after a write, the frame of a write, and that every
memory operation keeps the canonical form. -/

namespace Sys2Proof.Machine

@[simp] theorem Memory.read_nil (a : Nat) : Memory.read [] a = Memory.unlisted := rfl

@[simp] theorem Memory.read_cons_self (a : Nat) (b : Byte) (m : List Host.Cell) :
    Memory.read ((a, b) :: m) a = b := by simp [Memory.read]

@[simp] theorem Memory.read_cons_ne {a k : Nat} (b : Byte) (m : List Host.Cell) (h : k ≠ a) :
    Memory.read ((k, b) :: m) a = Memory.read m a := by simp [Memory.read, h]

/-- The empty memory is in canonical form. -/
theorem Memory.wf_nil : Memory.wf [] := by simp [Memory.wf]

/-- The tail of a memory in canonical form is in canonical form. -/
theorem Memory.wf_tail {c : Host.Cell} {m : List Host.Cell} (h : Memory.wf (c :: m)) :
    Memory.wf m :=
  ⟨h.1.of_cons, fun x hx => h.2 x (List.mem_cons_of_mem _ hx)⟩

/-- Every address of the tail lies above the head's. -/
theorem Memory.head_lt {c : Host.Cell} {m : List Host.Cell} (h : Memory.wf (c :: m))
    {x : Host.Cell} (hx : x ∈ m) : c.1 < x.1 :=
  (List.pairwise_cons.mp h.1).1 x hx

/-- An address below every listed one reads as an unlisted address. -/
theorem Memory.read_of_lt {a : Nat} : ∀ {m : List Host.Cell}, (∀ c ∈ m, a < c.1) →
    Memory.read m a = Memory.unlisted
  | [], _ => rfl
  | (k, b) :: rest, h => by
    have hk : a < k := h (k, b) (by simp)
    rw [Memory.read_cons_ne b rest (by omega)]
    exact Memory.read_of_lt fun c hc => h c (by simp [hc])

/-- What `Memory.cons` makes a read of its own address, when the rest lies above it. -/
theorem Memory.read_cons'_self {a : Nat} {v : Byte} {m : List Host.Cell} (h : ∀ c ∈ m, a < c.1) :
    Memory.read (Memory.cons a v m) a = v := by
  unfold Memory.cons
  split
  · next hv => rw [hv]; exact Memory.read_of_lt h
  · simp

/-- `Memory.cons` leaves a read of another address alone. -/
theorem Memory.read_cons'_ne {a k : Nat} (v : Byte) (m : List Host.Cell) (h : k ≠ a) :
    Memory.read (Memory.cons k v m) a = Memory.read m a := by
  unfold Memory.cons
  split
  · rfl
  · exact Memory.read_cons_ne v m h

/-- `Memory.cons` below every listed address keeps the canonical form. -/
theorem Memory.wf_cons' {a : Nat} {v : Byte} {m : List Host.Cell} (hm : Memory.wf m)
    (h : ∀ c ∈ m, a < c.1) (ha : isStorage a) : Memory.wf (Memory.cons a v m) := by
  unfold Memory.cons
  split
  · exact hm
  · next hv =>
    refine ⟨List.pairwise_cons.mpr ⟨fun c hc => h c hc, hm.1⟩, ?_⟩
    intro c hc
    rcases List.mem_cons.mp hc with rfl | hc
    · exact ⟨hv, ha⟩
    · exact hm.2 c hc

/-- A cell of `Memory.cons` is the new one or an old one. -/
theorem Memory.mem_cons' {a : Nat} {v : Byte} {m : List Host.Cell} {c : Host.Cell}
    (h : c ∈ Memory.cons a v m) : c = (a, v) ∨ c ∈ m := by
  unfold Memory.cons at h
  split at h
  · exact .inr h
  · exact List.mem_cons.mp h

/-- A cell of a memory after a write is the new one or an old one. -/
theorem Memory.mem_write {a : Nat} {v : Byte} {c : Host.Cell} : ∀ {m : List Host.Cell},
    c ∈ Memory.write m a v → c = (a, v) ∨ c ∈ m
  | [], h => Memory.mem_cons' h
  | (k, b) :: rest, h => by
    unfold Memory.write at h
    split at h
    · exact Memory.mem_cons' h
    · split at h
      · rcases Memory.mem_cons' h with h | h
        · exact .inl h
        · exact .inr (List.mem_cons_of_mem _ h)
      · rcases List.mem_cons.mp h with rfl | h
        · exact .inr (by simp)
        · rcases Memory.mem_write h with h | h
          · exact .inl h
          · exact .inr (List.mem_cons_of_mem _ h)

/-- A write leaves every other address alone. -/
theorem Memory.read_write_ne {a k : Nat} (v : Byte) (h : k ≠ a) : ∀ m : List Host.Cell,
    Memory.read (Memory.write m k v) a = Memory.read m a
  | [] => by rw [Memory.write]; exact Memory.read_cons'_ne v [] h
  | (j, b) :: rest => by
    unfold Memory.write
    split
    · exact Memory.read_cons'_ne v _ h
    · split
      · next hj => rw [Memory.read_cons'_ne v rest h, Memory.read_cons_ne b rest (by omega)]
      · by_cases hja : j = a
        · subst hja; simp
        · rw [Memory.read_cons_ne b _ hja, Memory.read_cons_ne b _ hja]
          exact Memory.read_write_ne v h rest

/-- A read after a write to the same address gives the byte written, in a canonical memory. -/
theorem Memory.read_write_self {a : Nat} (v : Byte) : ∀ {m : List Host.Cell}, Memory.wf m →
    Memory.read (Memory.write m a v) a = v
  | [], _ => by rw [Memory.write]; exact Memory.read_cons'_self (by simp)
  | (j, b) :: rest, hm => by
    have hlt := fun x (hx : x ∈ rest) => Memory.head_lt hm hx
    unfold Memory.write
    split
    · next haj =>
      refine Memory.read_cons'_self fun c hc => ?_
      rcases List.mem_cons.mp hc with rfl | hc
      · exact haj
      · exact lt_trans haj (hlt c hc)
    · split
      · next haj => subst haj; exact Memory.read_cons'_self hlt
      · next hne =>
        rw [Memory.read_cons_ne b _ (fun h => hne h.symm)]
        exact Memory.read_write_self v (Memory.wf_tail hm)

/-- A write at an address that holds a byte keeps the canonical form. -/
theorem Memory.wf_write {a : Nat} (v : Byte) (ha : isStorage a) : ∀ {m : List Host.Cell},
    Memory.wf m → Memory.wf (Memory.write m a v)
  | [], hm => by rw [Memory.write]; exact Memory.wf_cons' hm (by simp) ha
  | (j, b) :: rest, hm => by
    have hlt := fun x (hx : x ∈ rest) => Memory.head_lt hm hx
    unfold Memory.write
    split
    · next haj =>
      refine Memory.wf_cons' hm (fun c hc => ?_) ha
      rcases List.mem_cons.mp hc with rfl | hc
      · exact haj
      · exact lt_trans haj (hlt c hc)
    · split
      · next haj => subst haj; exact Memory.wf_cons' (Memory.wf_tail hm) hlt ha
      · next h1 h2 =>
        refine ⟨List.pairwise_cons.mpr ⟨fun c hc => ?_, (Memory.wf_write v ha (Memory.wf_tail hm)).1⟩,
          fun c hc => ?_⟩
        · rcases Memory.mem_write hc with rfl | hc
          · exact lt_of_le_of_ne (not_lt.mp h1) (fun h => h2 h.symm)
          · exact hlt c hc
        · rcases List.mem_cons.mp hc with rfl | hc
          · exact hm.2 _ (by simp)
          · exact (Memory.wf_write v ha (Memory.wf_tail hm)).2 c hc

/-- The bytes of the line buffer's window hold data. -/
theorem isStorage_lbufAddr {i : Nat} (h : i < 256) : isStorage (lbufAddr i) :=
  .inl ⟨by unfold lbufAddr; omega, by unfold lbufAddr Config.lineMax; omega⟩

/-- The low byte of each entry of the character table's window holds data. -/
theorem isStorage_chartabAddr {c : Nat} (h : c < 256) : isStorage (chartabAddr c) :=
  .inr ⟨by unfold chartabAddr; omega, by unfold chartabAddr Config.tableSize; omega,
    by unfold chartabAddr chartabBase; omega⟩

/-- A write of a word of the line buffer keeps the canonical form. -/
theorem wf_writeLbufWord {m : Memory} {k : Nat} (v : Word) (hk : k < 64) (hm : Memory.wf m) :
    Memory.wf (writeLbufWord m k v) :=
  Memory.wf_write _ (isStorage_lbufAddr (by omega)) <|
    Memory.wf_write _ (isStorage_lbufAddr (by omega)) <|
      Memory.wf_write _ (isStorage_lbufAddr (by omega)) <|
        Memory.wf_write _ (isStorage_lbufAddr (by omega)) hm

end Sys2Proof.Machine
end

