-- ==== Sys2Proof/Laws/PerInstr.lean ====
section
/-! SUPPORT. Statements about every command as syntax, one lemma per constructor. -/

namespace Sys2Proof.Laws

/-- The three fields of a command's word (30_encoding.md R80): RSV is 0, WSEL is the command's, OP is
its opcode. -/
def EncodeFields.Statement (i : Instr) : Prop :=
  rsvField (encode i) = 0 ∧ wselField (encode i) = i.wsel ∧ opField (encode i) = opcode i

theorem EncodeFields.nop (wsel : WSel) : EncodeFields.Statement (.nop wsel) := by
  revert wsel; unfold EncodeFields.Statement; decide

theorem EncodeFields.rev (wsel : WSel) : EncodeFields.Statement (.rev wsel) := by
  revert wsel; unfold EncodeFields.Statement; decide

theorem EncodeFields.enc (wsel : WSel) : EncodeFields.Statement (.enc wsel) := by
  revert wsel; unfold EncodeFields.Statement; decide

theorem EncodeFields.dec (wsel : WSel) : EncodeFields.Statement (.dec wsel) := by
  revert wsel; unfold EncodeFields.Statement; decide

theorem EncodeFields.xenc (wsel : WSel) : EncodeFields.Statement (.xenc wsel) := by
  revert wsel; unfold EncodeFields.Statement; decide

theorem EncodeFields.xdec (wsel : WSel) : EncodeFields.Statement (.xdec wsel) := by
  revert wsel; unfold EncodeFields.Statement; decide

theorem EncodeFields.pack (wsel : WSel) : EncodeFields.Statement (.pack wsel) := by
  revert wsel; unfold EncodeFields.Statement; decide

theorem EncodeFields.unpack (wsel : WSel) : EncodeFields.Statement (.unpack wsel) := by
  revert wsel; unfold EncodeFields.Statement; decide

theorem EncodeFields.eval (wsel : WSel) : EncodeFields.Statement (.eval wsel) := by
  revert wsel; unfold EncodeFields.Statement; decide

theorem EncodeFields.clrerr (wsel : WSel) : EncodeFields.Statement (.clrerr wsel) := by
  revert wsel; unfold EncodeFields.Statement; decide

end Sys2Proof.Laws
end

