-- ==== Sys2Proof/Machine/HostSyntax.lean ====
section
/-! DEFINITION. The host's assembler syntax as the bus accesses it expands to (30_encoding.md R90,
R91). The block knows nothing of it: the names here only write `pending` lists. -/

namespace Sys2Proof.Machine

/-- `WR <reg>, <value>` at a byte offset (30_encoding.md R90). -/
def hostWr (off : Nat) (v : Nat) : HostEvent :=
  .access (.write .word (BitVec.ofNat 11 off) (BitVec.ofNat 32 v))

/-- `RD <reg>` at a byte offset (30_encoding.md R90). -/
def hostRd (off : Nat) : HostEvent := .access (.read .word (BitVec.ofNat 11 off))

/-- `<MNEMONIC>`, `<MNEMONIC>.8` or `<MNEMONIC>.16`: the command's word written to CMD
(30_encoding.md R90). -/
def hostCmd (i : Instr) : HostEvent := cmdWrite (encode i)

/-- Word k of a text for the LBUF window, with 0x00 past its end (30_encoding.md R91). -/
def lineWord (text : List Byte) (k : Nat) : Word :=
  text.getD (4 * k + 3) 0 ++ text.getD (4 * k + 2) 0 ++ text.getD (4 * k + 1) 0 ++
    text.getD (4 * k) 0

/-- `LINE "<text>"`: the text's words into the LBUF window, then its length into LLEN
(30_encoding.md R91). -/
def hostLine (text : List Byte) : List HostEvent :=
  (List.range ((text.length + 3) / 4)).map (fun k => hostWr (0x100 + 4 * k) (lineWord text k).toNat)
    ++ [hostWr 0x01C text.length]

/-- `CHR '<c>', <code>`: entry c valid with the 7-bit code (30_encoding.md R91). -/
def hostChr (c : Byte) (code : BitVec 7) : HostEvent :=
  hostWr (0x400 + 4 * c.toNat) (0x80 + code.toNat)

/-- `NOCHR '<c>'`: entry c removed (30_encoding.md R91). -/
def hostNochr (c : Byte) : HostEvent := hostWr (0x400 + 4 * c.toNat) 0

/-- `MODE8`: CFG written back with bit 0 cleared (30_encoding.md R91). -/
def hostMode8 (cfg : Cfg) : HostEvent := hostWr 0x000 (Cfg.toWord { cfg with mode := 0 }).toNat

/-- `MODE16`: CFG written back with bit 0 set (30_encoding.md R91). -/
def hostMode16 (cfg : Cfg) : HostEvent := hostWr 0x000 (Cfg.toWord { cfg with mode := 1 }).toNat

end Sys2Proof.Machine
end

