-- ==== Sys2Proof/Tests/Slice0.lean ====
section
/-! SUPPORT. The model's own tests. Expected values are those of spec/95_test_vectors.md (V<n>) or are
written out from the rule named; the words of the decode tests are written out bit by bit from
30_encoding.md R80 and R81. The `witness_` theorems show for each statement with hypotheses a concrete
case that meets them together, one for each clause. -/

namespace Sys2Proof.Tests

open Sys2Proof Sys2Proof.Machine

/-! ### Helpers -/

/-- The next state of an outcome, if there is one. -/
def after (o : Host.Outcome State Fault Refusal) : Option State :=
  match o with
  | .next t => some t
  | .fault _ => none
  | .refused _ => none

/-- RES, SYM, STATUS and ERRPOS after a step, as bus words. -/
def results (o : Host.Outcome State Fault Refusal) : Option (Nat × Nat × Nat × Nat) :=
  (after o).map fun t => (t.res.toNat, t.sym.toNat, t.status.toWord.toNat, t.errpos.toWord.toNat)

/-- Whether an outcome is a refusal. -/
def isRefused (o : Host.Outcome State Fault Refusal) : Bool :=
  match o with
  | .next _ => false
  | .fault _ => false
  | .refused _ => true

/-- The reset state with operands. -/
def operands (opa opb : Word) (sym : BitVec 24) : State :=
  { State.reset with opa := opa, opb := opb, sym := sym }

/-- The reset state with a character table of one entry. -/
def oneChar (c : Nat) (entry : Byte) : State := { State.reset with mem := [(0x400 + 4 * c, entry)] }

/-- The reset state with a line without 0x00 bytes and a table. -/
def lineState (text : List Byte) (table : Memory) : State :=
  { State.reset with
    llen := BitVec.ofNat 9 text.length
    mem := text.zipIdx.map (fun p => (0x100 + p.2, p.1)) ++ table }

/-! ### WellFormed: an ill-formed term for its check -/

theorem test_wsel_three_is_ill_formed : ¬ Instr.WellFormed (.rev 0b11#2) := by decide

theorem test_wsel_two_is_well_formed : Instr.WellFormed (.rev 0b10#2) := by decide

/-! ### Decode: one word of each command, written out from R80 and R81 -/

theorem test_decode_nop : decode 0b00000000000000000000000000000000#32 = .ok (.nop 0b00#2) := by rfl
theorem test_decode_rev : decode 0b00000000000000000000001000000001#32 = .ok (.rev 0b10#2) := by rfl
theorem test_decode_enc : decode 0b00000000000000000000000100000010#32 = .ok (.enc 0b01#2) := by rfl
theorem test_decode_dec : decode 0b00000000000000000000001000000011#32 = .ok (.dec 0b10#2) := by rfl
theorem test_decode_xenc : decode 0b00000000000000000000000100000100#32 = .ok (.xenc 0b01#2) := by rfl
theorem test_decode_xdec : decode 0b00000000000000000000000000000101#32 = .ok (.xdec 0b00#2) := by rfl
theorem test_decode_pack : decode 0b00000000000000000000001000000110#32 = .ok (.pack 0b10#2) := by rfl
theorem test_decode_unpack : decode 0b00000000000000000000000100000111#32 = .ok (.unpack 0b01#2) := by rfl
theorem test_decode_eval : decode 0b00000000000000000000000000001000#32 = .ok (.eval 0b00#2) := by rfl
theorem test_decode_clrerr : decode 0b00000000000000000000001000001111#32 = .ok (.clrerr 0b10#2) := by rfl

/-- V195, V197, V199: the three ways a word is no command. -/
theorem test_decode_rejects_by_name :
    decode 0x00000301#32 = .error .reservedWidth ∧ decode 0x0000000E#32 = .error .unassignedOpcode ∧
      decode 0x00000401#32 = .error .reservedBits := ⟨rfl, rfl, rfl⟩

theorem test_decodeTableWord_reads_the_row : decodeTableWord 32 0x0F = some (.clrerr 0b00#2) := by
  decide

theorem test_decodeTableWord_refuses : decodeTableWord 32 0x0000030F = none := by decide

/-! ### The commands (95_test_vectors.md) -/

/-- V6. -/
theorem test_rev16 : results (exec (.rev 0b10#2) (operands 0x1234 0 0)) = some (0x2C48, 0, 0, 0) := by
  decide

/-- V20. -/
theorem test_rev8_operand_range :
    results (exec (.rev 0b01#2) (operands 0x100 0 0)) = some (0, 0, 0x26, 0) := by decide

/-- V29. -/
theorem test_enc16 : results (exec (.enc 0b10#2) (operands 33280 0 0)) = some (0, 0x514736, 0, 0) := by
  decide

/-- V42. -/
theorem test_enc8_operand_range :
    results (exec (.enc 0b01#2) (operands 5041 0 0)) = some (0, 0, 0x26, 0) := by decide

/-- V52. -/
theorem test_dec16 :
    results (exec (.dec 0b10#2) (operands 0 0 0x7A7A7A)) = some (0x2BB0B, 0x7A7A7A, 0, 0) := by decide

/-- V64. -/
theorem test_dec16_invalid_symbol :
    results (exec (.dec 0b10#2) (operands 0 0 0x3D3030)) = some (0, 0x3D3030, 0x25, 0x10002) := by
  decide

/-- V75. -/
theorem test_xenc16 :
    results (exec (.xenc 0b10#2) (operands 0xFFFC 0 0)) = some (0, 0x526833, 0, 0) := by decide

/-- V80: SYM2 becomes 0x00 at w = 8. -/
theorem test_xenc8 :
    results (exec (.xenc 0b01#2) (operands 1 0 0x303030)) = some (0, 0x5631, 0, 0) := by decide

/-- V89. -/
theorem test_xdec16 :
    results (exec (.xdec 0b10#2) (operands 0 0 0x514736)) = some (0x41, 0x514736, 0, 0) := by decide

/-- V98. -/
theorem test_xdec16_operand_range :
    results (exec (.xdec 0b10#2) (operands 0 0 0x333064)) = some (0, 0x333064, 0x26, 0) := by decide

/-- V104: profile ONES. -/
theorem test_pack16 :
    results (exec (.pack 0b10#2) { oneChar 0x41 0xC1 with
      opa := 0x41, opb := 5, cfg := { mode := 1, profile := 1, gate := 0, fallback := 0x20 } }) =
      some (0xE2C1, 0, 0, 0) := by decide

/-- V114. -/
theorem test_pack8_value_too_large :
    results (exec (.pack 0b01#2) { oneChar 0x41 0xC1 with opa := 0x41, opb := 2 }) =
      some (0, 0, 0x24, 0) := by decide

/-- V203: the lowest byte with the code. -/
theorem test_unpack16_lowest :
    results (exec (.unpack 0b10#2) { State.reset with
      opa := 0x41, mem := [(0x504, 0xC1), (0x584, 0xC1)] }) = some (0x00410041, 0, 0, 0) := by decide

/-- V205: a miss gives the fallback. -/
theorem test_unpack16_miss :
    results (exec (.unpack 0b10#2) { State.reset with
      opa := 0x41, cfg := { mode := 1, profile := 0, gate := 0, fallback := 0x3F } }) =
      some (0x013F0041, 0, 0, 0) := by decide

/-- V137: "b1+b3". -/
theorem test_eval_sum :
    results (exec (.eval 0b10#2) (lineState [0x62, 0x31, 0x2B, 0x62, 0x33] [])) =
      some (5, 0, 0, 0) := by decide

/-- V178: "b1+b17". -/
theorem test_eval_bit_index_out_of_range :
    results (exec (.eval 0b10#2) (lineState [0x62, 0x31, 0x2B, 0x62, 0x31, 0x37] [])) =
      some (0, 0, 0x23, 0x00030003) := by decide

/-- V188. -/
theorem test_nop_keeps_the_error :
    results (exec (.nop 0b10#2) { State.reset with
      status := { err := 3, empty := 0, sticky := 1 }, errpos := { pos := 0, len := 3 } }) =
      some (0, 0, 0x23, 0x00030000) := by decide

/-- V189. -/
theorem test_clrerr : results (exec (.clrerr 0b00#2) { State.reset with
    status := { err := 6, empty := 0, sticky := 1 } }) = some (0, 0, 0, 0) := by decide

/-! ### The bus and the step -/

/-- V228: EVAL right after reset, through the step. -/
theorem test_step_runs_a_command :
    results (step (State.reset.withFetchWord 32 0x08)) = some (0, 0, 0x10, 0) := by decide

/-- V196: an unassigned opcode, through the step. -/
theorem test_step_illegal_command :
    results (step (State.reset.withFetchWord 32 0x09)) = some (0, 0, 0x27, 0) := by decide

/-- V223 and R56: a misaligned write of CMD runs nothing. -/
theorem test_misaligned_write_is_refused :
    isRefused (step { State.reset with pending := [wr 0x009 0x201] }) = true := by decide

/-- V217: reserved bits of a table entry read 0. -/
theorem test_chartab_entry_reads_back :
    ((after (step { State.reset with pending := [wr 0x504 0xFFFFFFFF, rd 0x504] })).bind
      fun t => (after (step t)).map State.response) = some (.data 0xFF) := by decide

/-- V220: LBUF[0] is the low byte of the window's first word. -/
theorem test_lbuf_window_byte_order :
    ((after (step { State.reset with pending := [wr 0x100 0x33323130] })).map
      fun t => (lbuf t 0, lbuf t 3)) = some (0x30, 0x33) := by decide

/-- R91: `LINE` packs its text little-endian, with 0x00 past its end (program P2, rows 1 to 3). -/
theorem test_host_line : hostLine [0x62, 0x31, 0x2B, 0x62, 0x33] =
    [wr 0x100 0x622B3162, wr 0x104 0x00000033, wr 0x01C 5] := by decide

/-- R91: `CHR 'A', 0x41` (program P1, row 2). -/
theorem test_host_chr : hostChr 0x41 0x41 = wr 0x504 0xC1 := by decide

/-! ### Witnesses: every statement's hypotheses are met together -/

theorem witness_IdleStepChangesNothing : State.reset.pending = [] := rfl

theorem witness_StepRunsTheDecodedCommand :
    ({ State.reset with pending := [cmdWrite 0x201] } : State).pending = cmdWrite 0x201 :: [] ∧
      decode 0x201 = .ok (.rev 0b10#2) ∧ Instr.WellFormed (.rev 0b10#2) ∧
      ∃ t, exec (.rev 0b10#2) State.reset = .next t := ⟨rfl, rfl, by decide, _, rfl⟩

/-- Both clauses, at boundary words: the lowest word with a bit of RSV, the lowest with WSEL 0b11, the
unassigned words next to an opcode, and the highest legal word. -/
theorem witness_IllegalWordsRaiseIllegalCommand :
    (0x400#32).toNat / 1024 ≠ 0 ∧ (0x300#32).toNat / 256 % 4 = 3 ∧
      (0x009#32).toNat % 256 ∉ [0x00, 0x01, 0x02, 0x03, 0x04, 0x05, 0x06, 0x07, 0x08, 0x0F] ∧
      (0x210#32).toNat % 256 ∉ [0x00, 0x01, 0x02, 0x03, 0x04, 0x05, 0x06, 0x07, 0x08, 0x0F] ∧
      ((0x20F#32).toNat / 1024 = 0 ∧ (0x20F#32).toNat / 256 % 4 ≠ 3 ∧
        (0x20F#32).toNat % 256 ∈ [0x00, 0x01, 0x02, 0x03, 0x04, 0x05, 0x06, 0x07, 0x08, 0x0F]) := by
  decide

theorem witness_EffectiveWidthOfACommandWord :
    State.reset.cfg.mode = 1#1 ∧ (Cfg.ofWord 0x2000).mode = 0#1 ∧
      (0x00000300#32).extractLsb' 8 2 = 0b11#2 := by decide

theorem witness_ReverseMirrorsTheBits : 65535 ≤ maxval .w16 ∧ 255 ≤ maxval .w8 ∧ 7 < bits .w8 := by
  decide

theorem witness_ReverseIsASelfInverseBijection : 0xFFFC ≤ maxval .w16 ∧ 255 ≤ maxval .w8 := by decide

theorem witness_EncodingIsPositional : 357910 < 71 ^ 3 ∧ 2 < 3 := by decide

theorem witness_DecodingFoldsOrNamesTheFirstInvalidSymbol :
    (∀ d ∈ [70, 0, 70], d < 71) ∧ [70, 0, 70].length ≤ 3 ∧ indexOf 0x23#8 = none := by decide

theorem witness_CodecRoundTrips : 5040 < 71 ^ 2 ∧ (∀ d ∈ [70, 1], d < 71) ∧ 65535 ≤ maxval .w16 := by
  decide

/-- Both clauses, at 255 and 256 for w = 8. -/
theorem witness_RevReversesOpaIntoRes :
    (0b01#2 : WSel) ≠ 0b11#2 ∧ (operands 255 0 0).opa.toNat ≤ maxval (effWidth 0b01#2 State.reset.cfg) ∧
      maxval (effWidth 0b01#2 State.reset.cfg) < (operands 256 0 0).opa.toNat := by decide

/-- Both clauses, at 71^3 - 1 and 71^3. -/
theorem witness_EncWritesTheSymbolsOfOpa :
    (operands 357910 0 0).opa.toNat ≤ 71 ^ symCount (effWidth 0b10#2 State.reset.cfg) - 1 ∧
      71 ^ symCount (effWidth 0b10#2 State.reset.cfg) - 1 < (operands 357911 0 0).opa.toNat := by decide

/-- Both clauses: ")))" has the digits 70, 70, 70; "00#" has its first invalid symbol at index 2. -/
theorem witness_DecWritesTheValueOfTheSymbols :
    ([70, 70, 70].length = symCount (effWidth 0b10#2 State.reset.cfg) ∧ (∀ d ∈ [70, 70, 70], d < 71) ∧
      ∀ j < 3, symByte (operands 0 0 0x292929).sym j = symbolOf ([70, 70, 70].getD j 0)) ∧
    (2 < symCount (effWidth 0b10#2 State.reset.cfg) ∧
      indexOf (symByte (operands 0 0 0x233030).sym 2) = none ∧
      ∀ k < 2, indexOf (symByte (operands 0 0 0x233030).sym k) ≠ none) := by decide

theorem witness_XencWritesTheSymbolsOfReversedOpa :
    (operands 65535 0 0).opa.toNat ≤ maxval (effWidth 0b00#2 State.reset.cfg) ∧
      maxval (effWidth 0b00#2 State.reset.cfg) < (operands 65536 0 0).opa.toNat := by decide

/-- The three clauses: "d02" is 65535, "d03" is 65536, "d0#" is invalid at index 2. -/
theorem witness_XdecWritesTheReversedValueOfTheSymbols :
    (∀ j < 3, symByte 0x323064#24 j = symbolOf ([13, 0, 2].getD j 0)) ∧
      13 * 71 ^ 2 + 0 * 71 + 2 ≤ maxval .w16 ∧
      (∀ j < 3, symByte 0x333064#24 j = symbolOf ([13, 0, 3].getD j 0)) ∧
      maxval .w16 < 13 * 71 ^ 2 + 0 * 71 + 3 ∧
      effWidth 0b10#2 State.reset.cfg = .w16 ∧ symCount .w16 = 3 ∧
      indexOf (symByte 0x233064#24 2) = none ∧ ∀ k < 2, indexOf (symByte 0x233064#24 k) ≠ none := by
  decide

theorem witness_XencThenXdecReturnsTheOperand :
    (0b00#2 : WSel) ≠ 0b11#2 ∧ (0b10#2 : WSel) ≠ 0b11#2 ∧
      effWidth 0b10#2 State.reset.cfg = effWidth 0b00#2 State.reset.cfg ∧
      (operands 0x8001 0 0).opa.toNat ≤ maxval (effWidth 0b00#2 State.reset.cfg) := by decide

theorem witness_RevTwiceGivesTheOperandBack :
    (0b01#2 : WSel) ≠ 0b11#2 ∧
      (operands 255 0 0).opa.toNat ≤ maxval (effWidth 0b01#2 State.reset.cfg) := by decide

/-- The five clauses, with 'A' and 0xFF in the table, at the bounds of OPA, OPB and the 8-bit fit. -/
theorem witness_PackComposesTheWord :
    (let s := { oneChar 0xFF 0x80 with opa := 0xFF, opb := 0x3F };
      s.opa.toNat ≤ 0xFF ∧ s.opb.toNat ≤ 0x3F ∧ 128 ≤ (s.mem.read (0x400 + 4 * s.opa.toNat)).toNat ∧
        effWidth 0b10#2 s.cfg = .w16) ∧
    (let s := { oneChar 0x41 0xC1 with opa := 0x41, opb := 1 };
      128 ≤ (s.mem.read (0x400 + 4 * s.opa.toNat)).toNat ∧ effWidth 0b01#2 s.cfg = .w8 ∧
        s.opb.toNat ≤ 1) ∧
    0xFF < (operands 0x100 0 0).opa.toNat ∧ 0x3F < (operands 0xFF 0x40 0).opb.toNat ∧
    ((oneChar 0x41 0x7F).mem.read (0x400 + 4 * 0x41)).toNat < 128 ∧
    (let s := { oneChar 0x41 0xC1 with opa := 0x41, opb := 2 };
      128 ≤ (s.mem.read (0x400 + 4 * s.opa.toNat)).toNat ∧ effWidth 0b01#2 s.cfg = .w8 ∧
        2 ≤ s.opb.toNat) := by decide

/-- The three clauses: a hit at the lowest and at the highest byte, a miss in the empty table, and
65536. -/
theorem witness_UnpackFindsTheLowestCharacter :
    (let s := { oneChar 0x00 0xC1 with opa := 0x00C1 };
      s.opa.toNat ≤ maxval (effWidth 0b01#2 s.cfg) ∧
        (s.mem.read (0x400 + 4 * 0x00)).toNat = 128 + s.opa.toNat % 128) ∧
    (let s := { oneChar 0xFF 0xC1 with opa := 0x00C1 };
      (s.mem.read (0x400 + 4 * 0xFF)).toNat = 128 + s.opa.toNat % 128 ∧
        ∀ d < 0xFF, (s.mem.read (0x400 + 4 * d)).toNat ≠ 128 + s.opa.toNat % 128) ∧
    (State.reset.opa.toNat ≤ maxval (effWidth 0b01#2 State.reset.cfg) ∧
      ∀ c, (State.reset.mem.read (0x400 + 4 * c)).toNat ≠ 128 + State.reset.opa.toNat % 128) ∧
    maxval (effWidth 0b10#2 State.reset.cfg) < (operands 65536 0 0).opa.toNat := by
  refine ⟨by decide, ⟨by decide, fun d hd => ?_⟩, ⟨by decide, fun c => ?_⟩, by decide⟩
  · have h : 0x400 + 4 * 0xFF ≠ 0x400 + 4 * d := by omega
    have h0 : Memory.read [(0x400 + 4 * 0xFF, 0xC1#8)] (0x400 + 4 * d) = 0x00#8 := by
      simp only [Memory.read, if_neg h]; rfl
    show (Memory.read [(0x400 + 4 * 0xFF, 0xC1#8)] (0x400 + 4 * d)).toNat ≠ _
    rw [h0]; decide
  · change (0 : Nat) ≠ _
    omega

theorem witness_UnpackOfPackIsAHit :
    (after (exec (.pack 0b10#2) { oneChar 0x41 0xC1 with opa := 0x41, opb := 5 })).map
      (fun t => t.status.err) = some 0 := by decide

theorem witness_CommentBeginsAtTheFirstDoubleSlash :
    (let l : List Byte := [0x2F, 0x31, 0x2F, 0x2F, 0x2F];
      l[2]? = some 0x2F#8 ∧ l[3]? = some 0x2F#8 ∧
        ∀ j < 2, ¬(l[j]? = some 0x2F#8 ∧ l[j + 1]? = some 0x2F#8)) ∧
    ∀ k, ¬(([] : List Byte)[k]? = some 0x2F#8 ∧ ([] : List Byte)[k + 1]? = some 0x2F#8) := by
  refine ⟨by decide, fun k h => ?_⟩
  simp at h

theorem witness_TrimRemovesWhitespaceAtBothEnds :
    1 ≤ 3 ∧ 3 ≤ ([0x20, 0x37, 0x09] : List Byte).length ∧
      trim [0x20, 0x37, 0x09] 0 3 = (1, 2) := by decide

theorem witness_BinaryLiteralValue :
    ([0x31, 0x30] : List Byte) ≠ [] ∧ binLit 1 [0x31, 0x30] = some 2 ∧ binLit 2 [0x31, 0x30] = none := by
  decide

theorem witness_DecimalLiteralValue :
    ([0x31, 0x30] : List Byte) ≠ [] ∧ decLit [0x31, 0x30] = some 10 ∧
      (∀ b ∈ ([0x31, 0x30] : List Byte), b = 0x30#8 ∨ b = 0x31#8) ∧
      ([0x31, 0x30] : List Byte).length ≤ 2 ∧ 1 < ([0x31, 0x30] : List Byte).length := by decide

theorem witness_HexLiteralValue : hexLit [0x48, 0x31, 0x66, 0x46] = some 0x1FF := by decide

/-- LLEN = 256 with the last byte read, a byte at LLEN that differs, and LLEN = 257. -/
theorem witness_EvalReadsTheFirstLlenBytes :
    (let s : State := { State.reset with llen := 256, mem := [(0x1FF, 0x37)] };
      (line s)[255]? = some 0x37) ∧
    (let s := lineState [0x37] [];
      let m : Memory := [(0x100, 0x37), (0x101, 0x38)];
      (∀ i < s.llen.toNat, m.read (0x100 + i) = s.mem.read (0x100 + i)) ∧ m ≠ s.mem ∧
        (∀ c ≤ 0xFF, m.read (0x400 + 4 * c) = s.mem.read (0x400 + 4 * c)) ∧
        (results (exec (.eval 0b01#2) s)).isSome) ∧
    256 < ({ State.reset with llen := 257 } : State).llen.toNat := by
  refine ⟨by decide, ⟨by decide, by decide, fun c _ => ?_, by decide⟩, by decide⟩
  have h0 : 0x100 ≠ 0x400 + 4 * c := by omega
  have h1 : 0x101 ≠ 0x400 + 4 * c := by omega
  simp [lineState, Memory.read, h0, h1]

/-- Lines of one byte: '0', '9' with a table entry, 'A' with entry V = 1 and CODE 0x7F, 'A' and '+'
with an empty table. -/
theorem witness_CharacterLiteralValue :
    (∃ k, charToCode (oneChar 0x41 0xFF) 0x41 = some k ∧ k.toNat = 127) ∧
    (slice [0x31, 0x2B, 0x30] 2 (2 + 1) = [0x30] ∧ slice [0x31, 0x2B, 0x41] 2 (2 + 1) = [0x41]) ∧
    (∀ b ∈ ([0x30, 0x39, 0x41, 0x2B] : List Byte), (lineState [b] []).llen = 1 ∧
      isWs ((lineState [b] []).mem.read 0x100) = false) ∧
    (let s := lineState [0x41] [(0x504, 0xFF)];
      s.llen = 1 ∧ isWs (s.mem.read 0x100) = false ∧
        128 ≤ (s.mem.read (0x400 + 4 * (s.mem.read 0x100).toNat)).toNat) := by
  refine ⟨⟨0x7F#7, by decide, by decide⟩, by decide, by decide, by decide⟩

/-- 'B016' is a bit index with N = 16, "b" and "b1x" are none; " b8" as a part at w = 8, and lines of
"b0", "b1", "b9" at w = 8. -/
theorem witness_BitIndexValue :
    bitIndex [0x42, 0x30, 0x31, 0x36] = some 16 ∧ bitIndex [0x62] = none ∧
    bitIndex [0x62, 0x31, 0x78] = none ∧
    (let p : Part := { before := [0x20], token := [0x62, 0x38], after := [] };
      slice [0x31, 0x2B, 0x20, 0x62, 0x38] 2 (2 + p.text.length) = p.text ∧ p.trimmed ∧
        bitIndex p.token = some 8 ∧ 8 ≤ bits .w8) ∧
    bitIndex (line (lineState [0x62, 0x30] [])) = some 0 ∧
    bitIndex (line (lineState [0x62, 0x31] [])) = some 1 ∧
    bitIndex (line (lineState [0x62, 0x39] [])) = some 9 ∧ bits (effWidth 0b01#2 State.reset.cfg) < 9 ∧
    (lineState [0x62, 0x39] []).llen.toNat ≤ 256 := by decide

theorem witness_SymbolsAreTheBytesOfSym : (2 < 3) ∧ (symByte 0x515247#24 2).toNat = 0x51 := by decide

/-- A token for each clause: "10", "7", "h1", "A" in the table, "zz", "7" in the table, "b1". -/
theorem witness_LiteralRulesAreTriedInOrder :
    binLit 1 [0x31, 0x30] = some 2 ∧ (binLit 0 [0x37] = none ∧ decLit [0x37] = some 7) ∧
      hexLit [0x68, 0x31] = some 1 ∧
      (binLit 0 [0x41] = none ∧ decLit [0x41] = none ∧ charLit (fun _ => some 0x41#7) [0x41] = some 65) ∧
      (binLit 0 [0x7A, 0x7A] = none ∧ decLit [0x7A, 0x7A] = none ∧ hexLit [0x7A, 0x7A] = none ∧
        charLit (fun _ => none) [0x7A, 0x7A] = none) ∧
      ((charLit (fun _ => some 0x37#7) [0x37]).isSome ∧ (decLit [0x37]).isSome) ∧
      (bitIndex [0x62, 0x31]).isSome := by decide

/-- The clauses: LLEN = 257; LLEN = 0; " //" with the comment at index 1; LLEN = 256 with the comment
at index 0. -/
theorem witness_EvalOfAnEmptyOrTooLongLine :
    256 < ({ State.reset with llen := 257 } : State).llen.toNat ∧
    (0 ≤ State.reset.llen.toNat ∧ State.reset.llen.toNat ≤ 256 ∧ 0 = State.reset.llen.toNat) ∧
    (let s := lineState [0x20, 0x2F, 0x2F] [];
      1 ≤ s.llen.toNat ∧ s.llen.toNat ≤ 256 ∧ (∀ j < 1, isWs (lbuf s j) = true) ∧
        1 + 1 < s.llen.toNat ∧ lbuf s 1 = 0x2F#8 ∧ lbuf s 2 = 0x2F#8) ∧
    (let s := { State.reset with llen := 256, mem := [(0x100, 0x2F), (0x101, 0x2F)] };
      s.llen.toNat ≤ 256 ∧ 0 + 1 < s.llen.toNat ∧ lbuf s 0 = 0x2F#8 ∧ lbuf s 1 = 0x2F#8) := by decide

/-- " 255 //" completes at w = 8; "256" does not fit; "b8" is the highest bit index. -/
theorem witness_EvalOfOneToken :
    (let s := lineState [0x20, 0x32, 0x35, 0x35, 0x20, 0x2F, 0x2F] [];
      let p : Part := { before := [0x20], token := [0x32, 0x35, 0x35], after := [0x20] };
      s.llen.toNat ≤ 256 ∧ line s = p.text ++ [0x2F, 0x2F] ∧ textLength (line s) = p.text.length ∧
        p.trimmed ∧ lit 0 (charToCode s) p.token = some 255 ∧
        255 ≤ maxval (effWidth 0b01#2 s.cfg)) ∧
    (let s := lineState [0x32, 0x35, 0x36] [];
      let p : Part := { before := [], token := [0x32, 0x35, 0x36], after := [] };
      line s = p.text ++ [] ∧ textLength (line s) = p.text.length ∧ p.trimmed ∧
        lit 0 (charToCode s) p.token = some 256 ∧ maxval (effWidth 0b01#2 s.cfg) < 256) ∧
    bitIndex [0x62, 0x38] = some 8 ∧ 8 ≤ bits .w8 := by decide

/-- "255+0" completes at w = 8 and "255+1" does not fit. -/
theorem witness_EvalOfASum :
    (let s := lineState [0x32, 0x35, 0x35, 0x2B, 0x30] [];
      let p : Part := { before := [], token := [0x32, 0x35, 0x35], after := [] };
      let q : Part := { before := [], token := [0x30], after := [] }
      s.llen.toNat ≤ 256 ∧ line s = joinParts [p, q] ++ [] ∧
        textLength (line s) = (joinParts [p, q]).length ∧
        (∀ r ∈ [p, q], r.trimmed ∧ chPlus ∉ r.token) ∧
        lit 0 (charToCode s) p.token = some 255 ∧ lit 0 (charToCode s) q.token = some 0 ∧
        [255, 0].sum ≤ maxval (effWidth 0b01#2 s.cfg)) ∧
    lit 0 (charToCode State.reset) [0x31] = some 1 ∧ maxval (effWidth 0b01#2 State.reset.cfg) < [255, 1].sum := by
  decide

/-- "b1+zz+" and "b1+b9" at w = 8, and "b0". -/
theorem witness_EvalStopsAtTheFirstBadTerm :
    (let s := lineState [0x62, 0x31, 0x2B, 0x7A, 0x7A, 0x2B] [];
      let g : Part := { before := [], token := [0x62, 0x31], after := [] };
      let b : Part := { before := [], token := [0x7A, 0x7A], after := [] }
      s.llen.toNat ≤ 256 ∧ line s = joinParts ([g] ++ [b]) ++ [chPlus] ++ [] ∧
        textLength (line s) = (joinParts ([g] ++ [b]) ++ [chPlus]).length ∧
        (g.trimmed ∧ chPlus ∉ g.token ∧ bitIndex g.token = some 1) ∧
        b.trimmed ∧ chPlus ∉ b.token ∧ lit 0 (charToCode s) b.token = none ∧ bitIndex b.token = none) ∧
    (bitIndex [0x62, 0x39] = some 9 ∧ bits .w8 < 9 ∧ lit 0 (charToCode State.reset) [0x62, 0x39] = none) ∧
    bitIndex [0x62, 0x30] = some 0 := by decide

/-- "1+ +2" and " +5", and "+" with an empty table. -/
theorem witness_EvalOfAnEmptyPart :
    (let s := lineState [0x31, 0x2B, 0x20, 0x2B, 0x32] [];
      let g : Part := { before := [], token := [0x31], after := [] };
      s.llen.toNat ≤ 256 ∧ (∀ b ∈ ([0x20] : List Byte), isWs b = true) ∧ [g] ≠ [] ∧
        (g.trimmed ∧ chPlus ∉ g.token ∧ lit 0 (charToCode s) g.token = some 1) ∧
        line s = joinParts [g] ++ [chPlus] ++ [0x20] ++ [0x2B, 0x32] ++ [] ∧
        textLength (line s) = (joinParts [g] ++ [chPlus] ++ [0x20] ++ [0x2B, 0x32]).length) ∧
    (let s := lineState [0x20, 0x2B, 0x35] [];
      line s = [0x20] ++ [chPlus] ++ [0x35] ++ [] ∧
        textLength (line s) = ([0x20] ++ [chPlus] ++ [0x35] : List Byte).length ∧
        ∃ b ∈ ([0x35] : List Byte), isWs b = false) ∧
    charToCode State.reset chPlus = none := by decide

theorem witness_NopWritesNothing : (0b10#2 : WSel) ≠ 0b11#2 ∧ decode 0x200#32 = .ok (.nop 0b10#2) :=
  ⟨by decide, rfl⟩

theorem witness_ClrerrClearsTheErrorState : (0b01#2 : WSel) ≠ 0b11#2 ∧
    ((after (exec (.clrerr 0b00#2) { State.reset with
      status := { err := 0, empty := 0, sticky := 1 } })).map fun t => t.status.sticky) = some 0 := by
  decide

/-- A NOP, an error, a completion, a CLRERR and an illegal word. -/
theorem witness_WhichCommandsWriteStatus :
    (∃ t, exec (.nop 0b00#2) State.reset = .next t) ∧
      (results (exec (.dec 0b10#2) State.reset) = some (0, 0, 0x25, 0x10000)) ∧
      (results (exec (.rev 0b10#2) State.reset) = some (0, 0, 0, 0)) ∧
      (∃ t, exec (.clrerr 0b00#2) State.reset = .next t) ∧ decode 0x300#32 = .error .reservedWidth :=
  ⟨⟨_, rfl⟩, by decide, by decide, ⟨_, rfl⟩, rfl⟩

theorem witness_ErrorsAreAllOrNothing :
    ((after (runWord 0x203 State.reset)).map fun t => t.status.err) = some 5 := by decide

/-- Two lines that differ at index LLEN only. -/
theorem witness_CommandsDependOnlyOnTheirInputs :
    sameInputs (.eval 0b00#2) { State.reset with mem := [(0x100, 0x31)] }
      { State.reset with mem := [(0x100, 0x32)] } := by
  refine ⟨rfl, rfl, rfl, fun j hj => absurd hj (Nat.not_lt_zero j), fun c => ?_⟩
  show Memory.read [(0x100, 0x31)] _ = Memory.read [(0x100, 0x32)] _
  have h : 0x100 ≠ chartabAddr c.toNat := by unfold chartabAddr chartabBase; omega
  simp only [Memory.read, if_neg h]

theorem witness_StickyIsClearedOnlyByClrerrOrReset :
    ((after (step { State.reset with
      status := { err := 6, empty := 0, sticky := 1 }
      pending := [cmdWrite 0x10F] })).map fun t => t.status.sticky) = some 0 := by decide

theorem witness_OnlyCmdWritesRunCommands :
    ((after (step { State.reset with pending := [wr 0x00C 0x201] })).map State.opa) = some 0x201 ∧
      (∀ c, Access.write .word 0x00C 0x201 ≠ .write .word 0x008 c) := by
  refine ⟨by decide, fun c h => ?_⟩
  injection h with _ h _
  exact absurd h (by decide)

/-- The first unmapped offset, and the last before the character table. -/
theorem witness_OnlyBusErrorsRefuseAStep :
    isRefused (step { State.reset with pending := [rd 0x024] }) = true ∧ ¬ isMapped 0x024 ∧
      ¬ isMapped 0x3FC ∧ isMapped 0x020 ∧ isMapped 0x400 := by decide

/-- The first and the last word of the window. -/
theorem witness_LbufWindowIsLittleEndian :
    State.reset.mem.wf ∧ (0x100#11).toNat = 0x100 + 4 * 0 ∧ (0x1FC#11).toNat = 0x100 + 4 * 63 := by
  decide

/-- The first and the last entry of the window. -/
theorem witness_ChartabWindowHoldsOneEntryAWord :
    State.reset.mem.wf ∧ (0x400#11).toNat = 0x400 + 4 * (0x00#8).toNat ∧
      (0x7FC#11).toNat = 0x400 + 4 * (0xFF#8).toNat := by decide

theorem witness_WritesReadBackAndChangeNoOtherWord :
    State.reset.mem.wf ∧ isMapped (0x020#11).toNat ∧ isMapped (0x7FC#11).toNat ∧
      (0x020#11 : Offset) ≠ 0x008 := by decide

theorem witness_EveryStepKeepsTheInvariant :
    Inv { State.reset with pending := [cmdWrite 0x203] } ∧
      ∃ t, step { State.reset with pending := [cmdWrite 0x203] } = .next t :=
  ⟨by decide, _, rfl⟩

end Sys2Proof.Tests
end

section
/-! PROOFS of the family 10_state.md: what reset leaves (R38), what a write of CFG sets (R22), and
which commands write which fields of STATUS (R24). -/

namespace Sys2Proof.Machine

/-! ### The reset state (10_state.md R38) -/

/-- No address is listed after reset, so every byte of memory reads 0x00. -/
@[simp] theorem reset_mem_read (a : Nat) : State.reset.mem.read a = 0x00 := rfl

/-- Every CHARTAB entry holds 0x00 after reset. -/
@[simp] theorem chartab_reset (c : Byte) : chartab State.reset c = 0x00 := rfl

/-- Every symbol of a SYM that holds 0 is 0x00. -/
@[simp] theorem symByte_zero (i : Nat) : symByte 0 i = 0x00 := by simp [symByte]

/-- Settles O52: the registers hold the values of R38 by definition, and the lemmas above give the
symbols, the line buffer and the character table. -/
theorem resetStateHoldsTheSpecsValues : Obligations.ResetStateHoldsTheSpecsValues := by
  unfold Obligations.ResetStateHoldsTheSpecsValues
  refine ⟨rfl, by decide, rfl, rfl, rfl, rfl, rfl, fun i _ => symByte_zero i, rfl,
    fun i _ => reset_mem_read _, fun c => ?_, rfl⟩
  rw [chartab_reset]
  decide

/-! ### A write of CFG (10_state.md R22) -/

/-- An accepted write of anything but CMD stores into its target and is answered (20_memory.md
R54). -/
theorem busAccess_write_of_target {size : AccessSize} {off : Offset} {tgt : Target}
    (h : busTarget size off = some tgt) (hcmd : tgt ≠ .cmd) (s : State) (v : Word) :
    busAccess s (.write size off v) = .next { writeTarget s v tgt with response := .accepted } := by
  simp only [busAccess, h]

/-- Offset 0x000 is CFG (20_memory.md R51). -/
theorem busTarget_cfg : busTarget .word 0x000 = some .cfg := rfl

@[simp] theorem Cfg.ofWord_mode_toNat (v : Word) : (Cfg.ofWord v).mode.toNat = v.toNat % 2 := by
  simp [Cfg.ofWord]

@[simp] theorem Cfg.ofWord_profile_toNat (v : Word) :
    (Cfg.ofWord v).profile.toNat = v.toNat / 2 % 2 := by
  simp [Cfg.ofWord, Nat.shiftRight_eq_div_pow]

@[simp] theorem Cfg.ofWord_gate_toNat (v : Word) :
    (Cfg.ofWord v).gate.toNat = v.toNat / 4 % 16 := by
  simp [Cfg.ofWord, Nat.shiftRight_eq_div_pow]

@[simp] theorem Cfg.ofWord_fallback_toNat (v : Word) :
    (Cfg.ofWord v).fallback.toNat = v.toNat / 256 % 256 := by
  simp [Cfg.ofWord, Nat.shiftRight_eq_div_pow]

/-- A step that takes a write of CFG stores the fields of the word and changes nothing else of the
block. -/
theorem step_write_cfg (s : State) (v : Word) (rest : List HostEvent) :
    step { s with pending := wr 0x000 v :: rest } =
      .next { s with cfg := Cfg.ofWord v, pending := rest, response := .accepted } := by
  rw [step_event rfl]
  exact busAccess_write_of_target busTarget_cfg (by decide) _ v

/-- Settles O45: the new CFG is `Cfg.ofWord v`, whose fields are those bits of `v`. -/
theorem cfgWriteSetsItsFields : Obligations.CfgWriteSetsItsFields := by
  unfold Obligations.CfgWriteSetsItsFields
  intro s v rest
  exact ⟨_, Cfg.ofWord v, step_write_cfg s v rest, rfl, Cfg.ofWord_mode_toNat v,
    Cfg.ofWord_profile_toNat v, Cfg.ofWord_gate_toNat v, Cfg.ofWord_fallback_toNat v⟩

/-! ### STATUS after a command (10_state.md R24) -/

/-- A well-formed NOP answers its own state. -/
theorem exec_of_isNop {i : Instr} (hwf : i.WellFormed) (hi : isNop i = true) (s : State) :
    exec i s = .next s := by
  cases i with
  | nop w =>
    have hw : w ≠ 0b11#2 := hwf
    rw [exec, execNop, withoutWidth_next, if_neg hw]
  | _ => contradiction

/-- A well-formed CLRERR clears STATUS and ERRPOS. -/
theorem exec_of_isClrerr {i : Instr} (hwf : i.WellFormed) (hi : isClrerr i = true) (s : State) :
    exec i s = .next { s with status := Status.clear, errpos := ErrPos.zero } := by
  cases i with
  | clrerr w =>
    have hw : w ≠ 0b11#2 := hwf
    rw [exec, execClrerr, withoutWidth_next, if_neg hw]
  | _ => contradiction

/-- The values STATUS can hold after a command: that of an error, what NOP keeps, what CLRERR
clears, or that of a completion or of an empty line. -/
theorem exec_status_cases {i : Instr} {s t : State} (h : exec i s = .next t) :
    (∃ e, t.status = Status.failed e) ∨
    (isNop i = true ∧ t.status = s.status) ∨
    (isClrerr i = true ∧ t.status = Status.clear) ∨
    (isNop i = false ∧ isClrerr i = false ∧
      (t.status = s.status.completed ∨ t.status = s.status.emptyLine)) := by
  rcases exec_cases i s with ⟨r, hr⟩ | ⟨hn, hr⟩ | ⟨hc, hr⟩ |
    ⟨hn, hc, ⟨_, v, hr⟩ | ⟨_, y, hr⟩ | ⟨_, hr⟩⟩ <;>
    obtain rfl := Host.Outcome.next.inj (hr.symm.trans h)
  · exact .inl ⟨r.err, rfl⟩
  · exact .inr (.inl ⟨hn, rfl⟩)
  · exact .inr (.inr (.inl ⟨hc, rfl⟩))
  · exact .inr (.inr (.inr ⟨hn, hc, .inl rfl⟩))
  · exact .inr (.inr (.inr ⟨hn, hc, .inl rfl⟩))
  · exact .inr (.inr (.inr ⟨hn, hc, .inr rfl⟩))

/-- After a command other than NOP, an error code stands with EMPTY 0 and STICKY 1. -/
theorem exec_status_of_err_ne_zero {i : Instr} {s t : State} (h : exec i s = .next t)
    (hn : isNop i = false) (he : t.status.err ≠ 0) : t.status.empty = 0 ∧ t.status.sticky = 1 := by
  rcases exec_status_cases h with ⟨e, hs⟩ | ⟨hn', _⟩ | ⟨_, hs⟩ | ⟨_, _, hs | hs⟩
  · simp [hs]
  · simp [hn] at hn'
  · exact absurd (by rw [hs]; rfl) he
  · simp [hs] at he
  · simp [hs] at he

/-- A command other than NOP and CLRERR that ends without error leaves STICKY. -/
theorem exec_sticky_of_err_eq_zero {i : Instr} {s t : State} (h : exec i s = .next t)
    (hn : isNop i = false) (hc : isClrerr i = false) (he : t.status.err = 0) :
    t.status.sticky = s.status.sticky := by
  rcases exec_status_cases h with ⟨e, hs⟩ | ⟨hn', _⟩ | ⟨hc', _⟩ | ⟨_, _, hs | hs⟩
  · exact absurd (by simpa [hs] using he) (code_ne_zero e)
  · simp [hn] at hn'
  · simp [hc] at hc'
  · simp [hs]
  · simp [hs]

/-! ### No command but NOP reads ERR, EMPTY or ERRPOS

Two states that differ in STATUS and ERRPOS only are `s` and `s.withFlags st p`. Every meaning makes
the same checks on both, so the two outcomes differ in STICKY at most. -/

/-- `s` with another STATUS and another ERRPOS. -/
def State.withFlags (st : Status) (p : ErrPos) (s : State) : State :=
  { s with status := st, errpos := p }

/-- `s` with another STICKY. -/
def State.withSticky (b : BitVec 1) (s : State) : State :=
  { s with status := { s.status with sticky := b } }

section
variable (st : Status) (p : ErrPos) (s : State)

@[simp] theorem withFlags_cfg : (s.withFlags st p).cfg = s.cfg := rfl
@[simp] theorem withFlags_opa : (s.withFlags st p).opa = s.opa := rfl
@[simp] theorem withFlags_opb : (s.withFlags st p).opb = s.opb := rfl
@[simp] theorem withFlags_sym : (s.withFlags st p).sym = s.sym := rfl
@[simp] theorem withFlags_llen : (s.withFlags st p).llen = s.llen := rfl
@[simp] theorem withFlags_charToCode : charToCode (s.withFlags st p) = charToCode s := rfl
@[simp] theorem withFlags_line : line (s.withFlags st p) = line s := rfl
@[simp] theorem withFlags_unpackWord (w : Width) :
    unpackWord w (s.withFlags st p) = unpackWord w s := rfl

@[simp] theorem withFlags_completeRes (v : Word) :
    completeRes v (s.withFlags st p) = (completeRes v s).withSticky st.sticky := rfl

@[simp] theorem withFlags_completeSym (y : BitVec 24) :
    completeSym y (s.withFlags st p) = (completeSym y s).withSticky st.sticky := rfl

@[simp] theorem withFlags_completeEval (r : Option Nat) :
    completeEval (s.withFlags st p) r = (completeEval s r).withSticky st.sticky := by
  cases r <;> rfl

/-- An error leaves nothing of the STATUS and ERRPOS before it, and sets STICKY. -/
@[simp] theorem withFlags_raise (r : Raised) :
    raise r (s.withFlags st p) = (raise r s).withSticky 1 := rfl

@[simp] theorem withFlags_illegal :
    illegal (s.withFlags st p) = (illegal s).withSticky 1 := rfl

end

@[simp] theorem withSticky_err (b : BitVec 1) (s : State) :
    (s.withSticky b).status.err = s.status.err := rfl

@[simp] theorem withSticky_empty (b : BitVec 1) (s : State) :
    (s.withSticky b).status.empty = s.status.empty := rfl

/-- What is done to a completion goes past the range check before it. -/
@[simp] theorem map_checkRange {α β : Type} (f : α → β) (v max : Nat) (rest : Except Raised α) :
    f <$> checkRange v max rest = checkRange v max (f <$> rest) := by
  unfold checkRange; split <;> rfl

/-- A width-dependent command whose body completes in the same state but for STICKY has the same
outcome but for STICKY. -/
theorem withWidth_withFlags (wsel : WSel) (st : Status) (p : ErrPos) (s : State)
    {body body' : Width → Except Raised State}
    (hbody : ∀ w, body' w = State.withSticky st.sticky <$> body w) :
    ∃ t b, withWidth wsel s body = .next t ∧
      withWidth wsel (s.withFlags st p) body' = .next (t.withSticky b) := by
  simp only [withWidth_next, withFlags_cfg, hbody]
  by_cases hw : wsel = 0b11#2
  · simp only [if_pos hw]
    exact ⟨illegal s, 1, rfl, congrArg _ (withFlags_illegal st p s)⟩
  · simp only [if_neg hw]
    cases body (effWidth wsel s.cfg) with
    | ok t => exact ⟨t, st.sticky, rfl, rfl⟩
    | error r => exact ⟨raise r s, 1, rfl, congrArg _ (withFlags_raise st p s r)⟩

/-- Whatever STATUS and ERRPOS held, a command other than NOP has one outcome but for STICKY. -/
theorem exec_withFlags {i : Instr} (hn : isNop i = false) (st : Status) (p : ErrPos) (s : State) :
    ∃ t b, exec i s = .next t ∧ exec i (s.withFlags st p) = .next (t.withSticky b) := by
  cases i with
  | nop w => contradiction
  | rev w =>
    simp only [exec, execRev]
    refine withWidth_withFlags w st p s fun w => ?_
    simp
  | enc w =>
    simp only [exec, execEnc]
    refine withWidth_withFlags w st p s fun w => ?_
    simp
  | dec w =>
    simp only [exec, execDec]
    refine withWidth_withFlags w st p s fun w => ?_
    simp only [withFlags_sym]
    cases decSymbols (symString w s.sym) <;> rfl
  | xenc w =>
    simp only [exec, execXenc]
    refine withWidth_withFlags w st p s fun w => ?_
    simp
  | xdec w =>
    simp only [exec, execXdec]
    refine withWidth_withFlags w st p s fun w => ?_
    simp only [withFlags_sym]
    cases decSymbols (symString w s.sym) with
    | ok v => simp
    | error r => rfl
  | pack w =>
    simp only [exec, execPack]
    refine withWidth_withFlags w st p s fun w => ?_
    simp only [map_checkRange, withFlags_cfg, withFlags_opa, withFlags_opb, withFlags_charToCode]
    cases charToCode s (s.opa.extractLsb' 0 8) with
    | none => rfl
    | some k =>
      cases h : packWord w s.cfg (s.opb.extractLsb' 0 6) k <;> simp [h]
  | unpack w =>
    simp only [exec, execUnpack]
    refine withWidth_withFlags w st p s fun w => ?_
    simp
  | eval w =>
    simp only [exec, execEval]
    refine withWidth_withFlags w st p s fun w => ?_
    simp only [map_checkRange, withFlags_cfg, withFlags_llen, withFlags_charToCode, withFlags_line]
    cases evalLine s.cfg.gate.toNat (charToCode s) w (line s) <;> simp
  | clrerr w =>
    simp only [exec, execClrerr, withoutWidth_next]
    by_cases hw : w = 0b11#2
    · simp only [if_pos hw]
      exact ⟨illegal s, 1, rfl, congrArg _ (withFlags_illegal st p s)⟩
    · simp only [if_neg hw]
      exact ⟨_, 0, rfl, rfl⟩

/-- ERR and EMPTY after a command other than NOP do not depend on the STATUS and ERRPOS before it. -/
theorem exec_err_empty_withFlags {i : Instr} {s t t' : State} {st : Status} {p : ErrPos}
    (hn : isNop i = false) (h : exec i s = .next t) (h' : exec i (s.withFlags st p) = .next t') :
    t'.status.err = t.status.err ∧ t'.status.empty = t.status.empty := by
  obtain ⟨u, b, hu, hu'⟩ := exec_withFlags hn st p s
  obtain rfl := Host.Outcome.next.inj (hu.symm.trans h)
  obtain rfl := Host.Outcome.next.inj (hu'.symm.trans h')
  exact ⟨withSticky_err b u, withSticky_empty b u⟩

/-- A word that decodes to no command raises IllegalCommand (30_encoding.md R84, R85). -/
theorem runWord_of_not_ok {c : Word} (h : ∀ i, decode c ≠ .ok i) (s : State) :
    runWord c s = .next (illegal s) := by
  rcases runWord_cases c s with ⟨i, hi, _⟩ | ⟨_, _, hr⟩
  · exact absurd hi (h i)
  · exact hr

/-- Settles O38: NOP and CLRERR by their one outcome each, the other commands by the cases of STATUS
after a command and by the frame lemma for STATUS and ERRPOS. -/
theorem whichCommandsWriteStatus : Obligations.WhichCommandsWriteStatus := by
  unfold Obligations.WhichCommandsWriteStatus
  refine ⟨fun i s t hwf h => ⟨?nop, exec_status_of_err_ne_zero h, exec_sticky_of_err_eq_zero h,
    ?clrerr, ?frame⟩, fun c s h => runWord_of_not_ok h s⟩
  case nop =>
    intro hi
    obtain rfl := Host.Outcome.next.inj ((exec_of_isNop hwf hi s).symm.trans h)
    rfl
  case clrerr =>
    intro hi
    obtain rfl := Host.Outcome.next.inj ((exec_of_isClrerr hwf hi s).symm.trans h)
    rfl
  case frame =>
    intro s' t' hn h' hs'
    rw [hs'] at h'
    exact exec_err_empty_withFlags hn h h'

end Sys2Proof.Machine
end

section
/-! PROOFS of the family 20_memory.md: the LBUF window (R57) and the CHARTAB window (R59). -/

namespace Sys2Proof.Machine

/-! ### A step that takes one bus access (20_memory.md R52 to R56) -/

/-- What a read returns depends on the block only, not on what the host does next. -/
@[simp] theorem readTarget_withPending (s : State) (rest : List HostEvent) (tgt : Target) :
    readTarget { s with pending := rest } tgt = readTarget s tgt := by
  cases tgt <;> rfl

/-- A step that takes an accepted read answers with the word of its target and changes nothing of
the block (R53). -/
theorem step_read_of_target {off : Offset} {tgt : Target} (h : busTarget .word off = some tgt)
    (s : State) (rest : List HostEvent) :
    step { s with pending := rd off :: rest } =
      .next { s with pending := rest, response := .data (readTarget s tgt) } := by
  rw [step_event rfl, hostEvent]
  simp only [busAccess, h, readTarget_withPending]

/-- A step that takes an accepted write of anything but CMD stores into its target (R54). -/
theorem step_write_of_target {off : Offset} {tgt : Target} (h : busTarget .word off = some tgt)
    (hcmd : tgt ≠ .cmd) (s : State) (v : Word) (rest : List HostEvent) :
    step { s with pending := wr off v :: rest } =
      .next { writeTarget { s with pending := rest } v tgt with response := .accepted } := by
  rw [step_event rfl]
  exact busAccess_write_of_target h hcmd _ v

/-- A narrow access has no target (R52). -/
theorem busTarget_of_ne_word {size : AccessSize} (h : size ≠ .word) (off : Offset) :
    busTarget size off = none :=
  if_neg fun hw => h hw.1

/-- A step that takes a read without a target is a bus error (R56). -/
theorem step_read_of_no_target {size : AccessSize} {off : Offset} (h : busTarget size off = none)
    (s : State) (rest : List HostEvent) :
    step { s with pending := .access (.read size off) :: rest } =
      .refused (.busError (.read size off)) := by
  rw [step_event rfl, hostEvent]
  simp only [busAccess, h]

/-- A step that takes a write without a target is a bus error (R56). -/
theorem step_write_of_no_target {size : AccessSize} {off : Offset} (h : busTarget size off = none)
    (s : State) (v : Word) (rest : List HostEvent) :
    step { s with pending := .access (.write size off v) :: rest } =
      .refused (.busError (.write size off v)) := by
  rw [step_event rfl, hostEvent]
  simp only [busAccess, h]

/-! ### The two windows of the register map (20_memory.md R51) -/

/-- Above the registers the map has the two windows only. -/
theorem targetAt_of_window {off : Nat} (h : 0x020 < off) :
    targetAt off =
      if 0x100 ≤ off ∧ off < 0x200 then some (.lbufWord ((off - 0x100) / 4))
      else if 0x400 ≤ off then some (.chartabEntry ((off - 0x400) / 4))
      else none := by
  unfold targetAt
  split
  on_goal 10 => rfl
  all_goals omega

/-- Word `k` of the LBUF window lies at 0x100 + 4k (R57). -/
theorem busTarget_lbufWord {off : Offset} {k : Nat} (hk : k ≤ 63)
    (hoff : off.toNat = 0x100 + 4 * k) : busTarget .word off = some (.lbufWord k) := by
  have hword : (off.toNat - 0x100) / 4 = k := by omega
  rw [busTarget, if_pos ⟨rfl, by omega⟩, targetAt_of_window (by omega), if_pos (by omega), hword]

/-- Entry `c` of the CHARTAB window lies at 0x400 + 4c (R59). -/
theorem busTarget_chartabEntry {off : Offset} {c : Nat} (hoff : off.toNat = 0x400 + 4 * c) :
    busTarget .word off = some (.chartabEntry c) := by
  have hentry : (off.toNat - 0x400) / 4 = c := by omega
  rw [busTarget, if_pos ⟨rfl, by omega⟩, targetAt_of_window (by omega), if_neg (by omega),
    if_pos (by omega), hentry]

/-! ### The bytes of a word -/

/-- The value of two bit vectors put together. -/
theorem toNat_append_eq_add {m n : Nat} (x : BitVec m) (y : BitVec n) :
    (x ++ y).toNat = x.toNat * 2 ^ n + y.toNat := by
  rw [BitVec.toNat_append, ← Nat.shiftLeft_add_eq_or_of_lt y.isLt, Nat.shiftLeft_eq]

/-- Byte `j` of a word as a number. -/
theorem toNat_extractLsb'_byte (v : Word) (j : Nat) :
    (v.extractLsb' (8 * j) 8).toNat = v.toNat / 256 ^ j % 256 := by
  rw [BitVec.extractLsb'_toNat, Nat.shiftRight_eq_div_pow, pow_mul]
  norm_num

/-- A word of the LBUF window is read with its lowest address in its lowest bits (R57). -/
theorem readTarget_lbufWord (s : State) (k : Nat) :
    readTarget s (.lbufWord k) =
      BitVec.ofNat 32 ((lbuf s (4 * k)).toNat + 0x100 * (lbuf s (4 * k + 1)).toNat +
        0x10000 * (lbuf s (4 * k + 2)).toNat + 0x1000000 * (lbuf s (4 * k + 3)).toNat) := by
  apply BitVec.eq_of_toNat_eq
  simp only [readTarget, toNat_append_eq_add, BitVec.toNat_ofNat]
  omega

/-- A CHARTAB entry's byte is its CODE and its V (R59). -/
theorem toNat_entry (e : Byte) :
    e.toNat = (entryCode e).toNat + 128 * (entryValid e).toNat := by
  have hcode : (entryCode e).toNat = e.toNat % 128 := by simp [entryCode]
  have hvalid : (entryValid e).toNat = e.toNat / 128 % 2 := by
    rw [entryValid, ← BitVec.testBit_toNat, Nat.toNat_testBit]
  omega

/-- A CHARTAB entry is read with V, CODE and zeros above them (R59). -/
theorem readTarget_chartabEntry (s : State) (c : Byte) :
    readTarget s (.chartabEntry c.toNat) =
      BitVec.ofNat 32 ((entryCode (chartab s c)).toNat +
        128 * (entryValid (chartab s c)).toNat) := by
  rw [← toNat_entry]
  apply BitVec.eq_of_toNat_eq
  simp only [readTarget, chartab, toNat_append_eq_add, BitVec.toNat_ofNat]
  omega

/-! ### A write of a word of the line buffer (20_memory.md R57) -/

/-- Each of the four bytes holds its byte of the word. The bytes are written lowest first, so the one
asked for survives the later writes. -/
theorem read_writeLbufWord {m : Memory} {k j : Nat} (hm : m.wf) (hk : k ≤ 63) (hj : j < 4)
    (v : Word) :
    (writeLbufWord m k v).read (lbufAddr (4 * k + j)) = v.extractLsb' (8 * j) 8 := by
  have hstorage : ∀ i < 4, isStorage (lbufAddr (4 * k + i)) := fun i hi =>
    isStorage_lbufAddr (by omega)
  have hne : ∀ i, i ≠ j → lbufAddr (4 * k + i) ≠ lbufAddr (4 * k + j) := fun i hi => by
    unfold lbufAddr; omega
  have hm0 := Memory.wf_write (v.extractLsb' 0 8) (hstorage 0 (by decide)) hm
  have hm1 := Memory.wf_write (v.extractLsb' 8 8) (hstorage 1 (by decide)) hm0
  have hm2 := Memory.wf_write (v.extractLsb' 16 8) (hstorage 2 (by decide)) hm1
  unfold writeLbufWord
  match j, hj with
  | 3, _ => exact Memory.read_write_self _ hm2
  | 2, _ =>
    rw [Memory.read_write_ne _ (hne 3 (by decide))]
    exact Memory.read_write_self _ hm1
  | 1, _ =>
    rw [Memory.read_write_ne _ (hne 3 (by decide)), Memory.read_write_ne _ (hne 2 (by decide))]
    exact Memory.read_write_self _ hm0
  | 0, _ =>
    rw [Memory.read_write_ne _ (hne 3 (by decide)), Memory.read_write_ne _ (hne 2 (by decide)),
      Memory.read_write_ne _ (hne 1 (by decide))]
    exact Memory.read_write_self _ hm

/-- Every address outside the four bytes keeps its byte. -/
theorem read_writeLbufWord_of_ne {k a : Nat} (h : ∀ j < 4, lbufAddr (4 * k + j) ≠ a) (m : Memory)
    (v : Word) : (writeLbufWord m k v).read a = m.read a := by
  have h0 : lbufAddr (4 * k) ≠ a := h 0 (by decide)
  rw [writeLbufWord, Memory.read_write_ne _ (h 3 (by decide)),
    Memory.read_write_ne _ (h 2 (by decide)), Memory.read_write_ne _ (h 1 (by decide)),
    Memory.read_write_ne _ h0]

/-! ### The windows, as the host uses them -/

/-- Settles O47: the offset is that of word `k`, and the laws of its four bytes give what it reads,
what a write stores and what a write keeps. -/
theorem lbufWindowIsLittleEndian : Obligations.LbufWindowIsLittleEndian := by
  unfold Obligations.LbufWindowIsLittleEndian
  intro s off k v rest hm hk hoff
  have htgt := busTarget_lbufWord hk hoff
  have haddr : ∀ j, 0x100 + 4 * k + j = lbufAddr (4 * k + j) := fun j => by
    unfold lbufAddr lbufBase; omega
  refine ⟨⟨_, step_read_of_target htgt s rest, rfl, congrArg _ (readTarget_lbufWord s k)⟩,
    _, writeLbufWord s.mem k v, step_write_of_target htgt (by simp) s v rest, rfl,
    ?stored, ?kept, ?narrow⟩
  case stored =>
    intro j hj
    rw [haddr, read_writeLbufWord hm hk hj, toNat_extractLsb'_byte]
  case kept =>
    intro a ha
    refine read_writeLbufWord_of_ne (fun j hj => ?_) s.mem v
    rw [← haddr]
    omega
  case narrow =>
    intro size hsize
    have hnone := busTarget_of_ne_word hsize off
    exact ⟨step_read_of_no_target hnone s rest, step_write_of_no_target hnone s v rest⟩

/-- Settles O48: the offset is that of entry `c`, whose one byte is read as CODE and V, takes the low
byte of a write, and is all that a write changes. -/
theorem chartabWindowHoldsOneEntryAWord : Obligations.ChartabWindowHoldsOneEntryAWord := by
  unfold Obligations.ChartabWindowHoldsOneEntryAWord
  intro s off c v rest hm hoff
  have htgt := busTarget_chartabEntry hoff
  refine ⟨⟨_, step_read_of_target htgt s rest, rfl, congrArg _ (readTarget_chartabEntry s c)⟩,
    _, s.mem.write (chartabAddr c.toNat) (v.extractLsb' 0 8),
    step_write_of_target htgt (by simp) s v rest, rfl, ?stored, ?kept⟩
  case stored =>
    refine (Memory.read_write_self _ hm).trans (BitVec.eq_of_toNat_eq ?_)
    simp
  case kept =>
    intro a ha
    exact Memory.read_write_ne _ ha.symm s.mem

end Sys2Proof.Machine
end

section
/-! PROOFS of the family 30_encoding.md: which words are commands (R84, R85), and the effective width
of a command word (R83). -/

namespace Sys2Proof

/-! ### The fields of a command word as numbers (30_encoding.md R80) -/

@[simp] theorem rsvField_toNat (c : Word) : (rsvField c).toNat = c.toNat / 1024 := by
  have hc := c.isLt
  simp only [rsvField, BitVec.extractLsb'_toNat, Nat.shiftRight_eq_div_pow]
  omega

@[simp] theorem wselField_toNat (c : Word) : (wselField c).toNat = c.toNat / 256 % 4 := by
  simp [wselField, Nat.shiftRight_eq_div_pow]

@[simp] theorem opField_toNat (c : Word) : (opField c).toNat = c.toNat % 256 := by
  simp [opField]

theorem rsvField_eq_zero_iff (c : Word) : rsvField c = 0#22 ↔ c.toNat / 1024 = 0 := by
  rw [← BitVec.toNat_inj, rsvField_toNat]; rfl

theorem wselField_eq_three_iff (c : Word) : wselField c = 0b11#2 ↔ c.toNat / 256 % 4 = 3 := by
  rw [← BitVec.toNat_inj, wselField_toNat]; rfl

/-! ### The words that are commands (30_encoding.md R84, R85, R88) -/

/-- The assigned opcodes are the ten of R81. -/
theorem exists_instrOfOpcode_iff (op : Nat) (wsel : WSel) :
    (∃ i, instrOfOpcode op wsel = some i) ↔
      op ∈ [0x00, 0x01, 0x02, 0x03, 0x04, 0x05, 0x06, 0x07, 0x08, 0x0F] := by
  unfold instrOfOpcode
  split
  case h_11 => simp_all
  all_goals simp

/-- A word decodes to a command exactly when RSV is 0, WSEL is not 0b11 and OP is the command's. -/
theorem decode_eq_ok_iff (c : Word) (i : Instr) :
    decode c = .ok i ↔ rsvField c = 0#22 ∧ wselField c ≠ 0b11#2 ∧
      instrOfOpcode (opField c).toNat (wselField c) = some i := by
  unfold decode
  by_cases hrsv : rsvField c = 0#22
  · by_cases hwsel : wselField c = 0b11#2
    · simp [hrsv, hwsel]
    · cases hop : instrOfOpcode (opField c).toNat (wselField c) <;> simp [hrsv, hwsel]
  · simp [hrsv]

/-- A word is a command exactly when no rule of R84 or R85 makes it an IllegalCommand. -/
theorem exists_decode_iff (c : Word) :
    (∃ i, decode c = .ok i) ↔ c.toNat / 1024 = 0 ∧ c.toNat / 256 % 4 ≠ 3 ∧
      c.toNat % 256 ∈ [0x00, 0x01, 0x02, 0x03, 0x04, 0x05, 0x06, 0x07, 0x08, 0x0F] := by
  simp only [decode_eq_ok_iff, exists_and_left, rsvField_eq_zero_iff, ne_eq,
    wselField_eq_three_iff, exists_instrOfOpcode_iff, opField_toNat]

/-- A word with WSEL 0b11 is refused before its width is used (R83, R84). -/
theorem decode_ne_ok_of_wselField {c : Word} (h : wselField c = 0b11#2) (i : Instr) :
    decode c ≠ .ok i := fun hi =>
  have ⟨_, hwsel, _⟩ := (decode_eq_ok_iff c i).mp hi
  hwsel h

namespace Machine

/-! ### A step that takes a write of CMD (20_memory.md R55) -/

/-- A step that takes a write of CMD runs its word and answers that the write was accepted. -/
theorem step_cmdWrite (s : State) (c : Word) (rest : List HostEvent) :
    step { s with pending := cmdWrite c :: rest } =
      respond .accepted (runWord c { s with pending := rest }) := by
  rw [step_event rfl]
  rfl

/-- A write of a word that is no command raises IllegalCommand (30_encoding.md R84, R85). -/
theorem step_cmdWrite_of_not_ok {c : Word} (h : ∀ i, decode c ≠ .ok i) (s : State)
    (rest : List HostEvent) :
    step { s with pending := cmdWrite c :: rest } =
      .next { illegal { s with pending := rest } with response := .accepted } := by
  rw [step_cmdWrite, runWord_of_not_ok h, respond_next]

/-- Settles O4: the hypotheses of its two clauses are complements, and `exists_decode_iff` says that
the second one is that of a command; the step of every other word raises IllegalCommand. -/
theorem illegalWordsRaiseIllegalCommand : Obligations.IllegalWordsRaiseIllegalCommand := by
  unfold Obligations.IllegalWordsRaiseIllegalCommand
  intro s c rest
  refine ⟨fun hbad => ?illegal, (exists_decode_iff c).mpr⟩
  case illegal =>
    have hno : ∀ i, decode c ≠ .ok i := fun i hi => by
      obtain ⟨hrsv, hwsel, hop⟩ := (exists_decode_iff c).mp ⟨i, hi⟩
      rcases hbad with hrsv' | hwsel' | hop'
      · exact hrsv' hrsv
      · exact hwsel hwsel'
      · exact hop' hop
    exact ⟨_, step_cmdWrite_of_not_ok hno s rest, rfl⟩

/-! ### The effective width (30_encoding.md R83, 40_transform.md R101) -/

/-- WSEL 0b01 selects w = 8 in every mode. -/
theorem effWidth_one (cfg : Cfg) : effWidth 0b01#2 cfg = .w8 := rfl

/-- WSEL 0b10 selects w = 16 in every mode. -/
theorem effWidth_two (cfg : Cfg) : effWidth 0b10#2 cfg = .w16 := rfl

/-- WSEL 0b00 leaves the width to CFG.MODE. -/
theorem effWidth_zero (cfg : Cfg) :
    effWidth 0b00#2 cfg = if cfg.mode = 1#1 then .w16 else .w8 := rfl

/-- Settles O7: one lemma per WSEL, the closed values by evaluation, and the refusal of WSEL 0b11 by
the decoder. -/
theorem effectiveWidthOfACommandWord : Obligations.EffectiveWidthOfACommandWord := by
  unfold Obligations.EffectiveWidthOfACommandWord
  refine ⟨effWidth_one, effWidth_two, fun cfg hmode => ?mode16, fun cfg hmode => ?mode8,
    rfl, rfl, rfl, rfl, rfl, rfl, rfl, by decide, rfl, by decide,
    fun c hwsel => decode_ne_ok_of_wselField hwsel⟩
  case mode16 => rw [effWidth_zero, if_pos hmode]
  case mode8 =>
    have hne : cfg.mode ≠ 1#1 := by rw [hmode]; decide
    rw [effWidth_zero, if_neg hne]

end Machine
end Sys2Proof
end

section
/-! PROOFS of the family 40_transform.md, part 1: bit reversal (R102, R103). -/

namespace Sys2Proof.Machine

/-! ### The bits of a reversed number (40_transform.md R102) -/

theorem reverseBits_lt (n : Nat) : ∀ x : Nat, reverseBits n x < 2 ^ n := by
  induction n with
  | zero => exact fun _ => Nat.one_pos
  | succ n ih =>
    intro x
    have hlow := ih (x / 2)
    have htop : x % 2 * 2 ^ n ≤ 1 * 2 ^ n := Nat.mul_le_mul_right _ (by omega)
    rw [reverseBits, pow_succ]
    omega

/-- Bit i of the reversal is bit n-1-i of the number. The lowest bit of `x` becomes bit `n` of the
result, above the reversal of the other bits, which the induction hypothesis gives. -/
theorem testBit_reverseBits (n : Nat) : ∀ x i : Nat,
    (reverseBits n x).testBit i = (decide (i < n) && x.testBit (n - 1 - i)) := by
  induction n with
  | zero => simp [reverseBits]
  | succ n ih =>
    intro x i
    rw [reverseBits, mul_comm, Nat.testBit_two_pow_mul_add _ (reverseBits_lt n (x / 2)) i]
    rcases Nat.lt_trichotomy i n with hlt | rfl | hgt
    · have hidx : n + 1 - 1 - i = n - 1 - i + 1 := by omega
      rw [if_pos hlt, ih, hidx, Nat.testBit_succ]
      simp [hlt, Nat.lt_succ_of_lt hlt]
    · simp [Nat.testBit_zero]
    · have hpos : i - n = i - n - 1 + 1 := by omega
      rw [if_neg (by omega), hpos, Nat.testBit_succ]
      have hzero : x % 2 / 2 = 0 := by omega
      simp [hzero, hgt]

theorem maxval_lt (w : Width) : maxval w < 2 ^ bits w := by cases w <;> decide

theorem reverseW_le_maxval (w : Width) (x : Nat) : reverseW w x ≤ maxval w :=
  Nat.le_sub_one_of_lt (reverseBits_lt (bits w) x)

theorem testBit_reverseW (w : Width) (x i : Nat) :
    (reverseW w x).testBit i = (decide (i < bits w) && x.testBit (bits w - 1 - i)) :=
  testBit_reverseBits (bits w) x i

/-- The reversed number as the word in RES. -/
theorem getLsbD_ofNat_reverseW (w : Width) (x i : Nat) :
    (BitVec.ofNat 32 (reverseW w x)).getLsbD i =
      (decide (i < bits w) && x.testBit (bits w - 1 - i)) := by
  have hbits : bits w ≤ 32 := by cases w <;> decide
  rw [BitVec.getLsbD_ofNat, testBit_reverseW]
  by_cases hi : i < bits w
  · simp [hi, Nat.lt_of_lt_of_le hi hbits]
  · simp [hi]

/-! ### Reversal is a self-inverse bijection (40_transform.md R103) -/

/-- Mirroring the index twice gives it back, and a w-bit value has no bit at w or above. -/
theorem reverseW_reverseW {w : Width} {x : Nat} (hx : x ≤ maxval w) :
    reverseW w (reverseW w x) = x := by
  apply Nat.eq_of_testBit_eq
  intro i
  rw [testBit_reverseW, testBit_reverseW]
  by_cases hi : i < bits w
  · have hmirror : bits w - 1 - (bits w - 1 - i) = i := by omega
    have hlt : bits w - 1 - i < bits w := by omega
    simp [hi, hlt, hmirror]
  · have hlt : x < 2 ^ i := calc
      x ≤ maxval w := hx
      _ < 2 ^ bits w := maxval_lt w
      _ ≤ 2 ^ i := Nat.pow_le_pow_right (by decide) (by omega)
    simp [hi, Nat.testBit_lt_two_pow hlt]

theorem reverseW_bijOn (w : Width) :
    Set.BijOn (reverseW w) (Set.Iic (maxval w)) (Set.Iic (maxval w)) :=
  have hmaps : Set.MapsTo (reverseW w) (Set.Iic (maxval w)) (Set.Iic (maxval w)) :=
    fun x _ => reverseW_le_maxval w x
  have hinv : Set.LeftInvOn (reverseW w) (reverseW w) (Set.Iic (maxval w)) :=
    fun _ hx => reverseW_reverseW hx
  Set.InvOn.bijOn ⟨hinv, hinv⟩ hmaps hmaps

/-- Counting the indices below `n` from the top gives the same count. -/
theorem countP_range_mirror (n : Nat) (p : Nat → Bool) :
    (List.range n).countP (fun i => p (n - 1 - i)) = (List.range n).countP p := by
  have hmirror : (List.range n).reverse = (List.range n).map (fun i => n - 1 - i) := by
    rw [List.range_eq_range', List.reverse_range', List.range_eq_range']
    simp
  rw [← List.countP_reverse (p := p), hmirror, List.countP_map]
  rfl

theorem countP_testBit_reverseW (w : Width) (x : Nat) :
    (List.range (bits w)).countP (fun i => (reverseW w x).testBit i) =
      (List.range (bits w)).countP (fun i => x.testBit i) := by
  rw [← countP_range_mirror (bits w) (fun i => x.testBit i)]
  refine List.countP_congr fun i hi => ?_
  rw [testBit_reverseW, decide_eq_true (List.mem_range.mp hi), Bool.true_and]

/-- Settles O10: the inverse, the bijection and the number of 1 bits follow from the mirrored index;
the three single values are closed facts of each width. -/
theorem reverseIsASelfInverseBijection : Obligations.ReverseIsASelfInverseBijection := by
  unfold Obligations.ReverseIsASelfInverseBijection
  exact fun w => ⟨fun x hx => reverseW_reverseW hx, reverseW_bijOn w, by cases w <;> decide,
    by cases w <;> decide, by cases w <;> decide, fun x _ => countP_testBit_reverseW w x⟩

end Sys2Proof.Machine
end

section
/-! PROOFS of the family 40_transform.md, part 2: the alphabet (R100) and the base-71 codec (R104 to
R106). -/

namespace Sys2Proof.Machine

/-! ### The alphabet (40_transform.md R100) -/

@[simp] theorem alphabet_length : alphabet.length = 71 := by decide

theorem alphabet_nodup : alphabet.Nodup := by decide

/-- Below 71, `symbolOf` reads the table. -/
theorem symbolOf_eq_getElem {d : Nat} (hd : d < alphabet.length) : symbolOf d = alphabet[d] :=
  List.getD_eq_getElem _ _ hd

theorem mem_alphabet_iff (b : Byte) : b ∈ alphabet ↔ ∃ d < 71, symbolOf d = b := by
  rw [List.mem_iff_getElem]
  constructor
  · rintro ⟨d, hd, rfl⟩
    exact ⟨d, hd, symbolOf_eq_getElem hd⟩
  · rintro ⟨d, hd, rfl⟩
    exact ⟨d, hd, (symbolOf_eq_getElem hd).symm⟩

/-- `indexOf` inverts `symbolOf`, since the bytes of the table are distinct. -/
theorem indexOf_symbolOf {d : Nat} (hd : d < 71) : indexOf (symbolOf d) = some d := by
  have hd' : d < alphabet.length := hd
  rw [indexOf, symbolOf_eq_getElem hd', List.idxOf?_eq_some_iff]
  exact ⟨hd', rfl, fun j hj heq => hj.ne ((alphabet_nodup.getElem_inj_iff).mp heq)⟩

/-- The bytes without an index are those that are no symbol. -/
theorem indexOf_eq_none_iff (b : Byte) : indexOf b = none ↔ ∀ d < 71, symbolOf d ≠ b := by
  rw [indexOf, List.idxOf?_eq_none_iff, mem_alphabet_iff]
  simp

/-- Settles O8: the table and its distinct bytes by evaluation, index as the inverse from them. -/
theorem alphabetIsTheSpecsTable : Obligations.AlphabetIsTheSpecsTable := by
  unfold Obligations.AlphabetIsTheSpecsTable
  exact ⟨by decide, by decide, by decide, by decide, alphabet_length, alphabet_nodup,
    fun _ hi => indexOf_symbolOf hi, indexOf_eq_none_iff⟩

/-! ### Strings of digits and their number

`numOfDigits` is the sum that the statements on decoding write out; `digitsOf` are the digits that
those on encoding write out. -/

/-- The number whose base-71 digits are `ds`, the most significant first. -/
def numOfDigits (ds : List Nat) : Nat :=
  ∑ i ∈ Finset.range ds.length, ds.getD i 0 * 71 ^ (ds.length - 1 - i)

/-- The `l` base-71 digits of `x`, the most significant first. -/
def digitsOf (l x : Nat) : List Nat := (List.range l).map fun j => x / 71 ^ (l - 1 - j) % 71

@[simp] theorem numOfDigits_nil : numOfDigits [] = 0 := rfl

theorem numOfDigits_cons (d : Nat) (ds : List Nat) :
    numOfDigits (d :: ds) = d * 71 ^ ds.length + numOfDigits ds := by
  rw [numOfDigits, List.length_cons, Finset.sum_range_succ', add_comm]
  congr 1
  refine Finset.sum_congr rfl fun i _ => ?_
  have hexp : ds.length + 1 - 1 - (i + 1) = ds.length - 1 - i := by omega
  rw [hexp, List.getD_cons_succ]

theorem numOfDigits_concat (ds : List Nat) (d : Nat) :
    numOfDigits (ds ++ [d]) = numOfDigits ds * 71 + d := by
  induction ds with
  | nil => simp [numOfDigits_cons]
  | cons e ds ih =>
    simp only [List.cons_append, numOfDigits_cons, ih, List.length_append, List.length_singleton,
      pow_succ]
    ring

theorem numOfDigits_lt {ds : List Nat} (hds : ∀ d ∈ ds, d < 71) :
    numOfDigits ds < 71 ^ ds.length := by
  induction ds with
  | nil => decide
  | cons d ds ih =>
    have hlow := ih fun e he => hds e (.tail _ he)
    have hd := hds d (.head _)
    have htop : d * 71 ^ ds.length ≤ 70 * 71 ^ ds.length := Nat.mul_le_mul_right _ (by omega)
    rw [numOfDigits_cons, List.length_cons, pow_succ]
    omega

@[simp] theorem digitsOf_length (l x : Nat) : (digitsOf l x).length = l := by simp [digitsOf]

theorem digitsOf_lt {l x d : Nat} (hd : d ∈ digitsOf l x) : d < 71 := by
  obtain ⟨j, _, rfl⟩ := List.mem_map.mp hd
  exact Nat.mod_lt _ (by decide)

/-- The digits of `x` are those of `x / 71` and then its remainder. -/
theorem digitsOf_succ (l x : Nat) : digitsOf (l + 1) x = digitsOf l (x / 71) ++ [x % 71] := by
  rw [digitsOf, List.range_succ, List.map_append, digitsOf]
  congr 1
  · refine List.map_congr_left fun j hj => ?_
    have hexp : l + 1 - 1 - j = l - 1 - j + 1 := by have := List.mem_range.mp hj; omega
    rw [hexp, pow_succ', Nat.div_div_eq_div_mul]
  · simp

theorem numOfDigits_digitsOf (l : Nat) : ∀ x < 71 ^ l, numOfDigits (digitsOf l x) = x := by
  induction l with
  | zero =>
    intro x hx
    have hzero : x = 0 := by simpa using hx
    rw [hzero]
    rfl
  | succ l ih =>
    intro x hx
    have hdiv : x / 71 < 71 ^ l := by rw [pow_succ] at hx; omega
    rw [digitsOf_succ, numOfDigits_concat, ih _ hdiv]
    omega

theorem digitsOf_numOfDigits {ds : List Nat} (hds : ∀ d ∈ ds, d < 71) :
    digitsOf ds.length (numOfDigits ds) = ds := by
  induction ds using List.reverseRecOn with
  | nil => rfl
  | append_singleton ds d ih =>
    have hd : d < 71 := hds d (by simp)
    have hdiv : (numOfDigits ds * 71 + d) / 71 = numOfDigits ds := by omega
    have hmod : (numOfDigits ds * 71 + d) % 71 = d := by omega
    rw [List.length_append, List.length_singleton, digitsOf_succ, numOfDigits_concat, hdiv, hmod,
      ih fun e he => hds e (by simp [he])]

/-! ### Encoding and decoding strings of symbols (40_transform.md R104, R105) -/

theorem encSymbols_eq_map (l : Nat) : ∀ x, encSymbols l x = (digitsOf l x).map symbolOf := by
  induction l with
  | zero => exact fun _ => rfl
  | succ l ih =>
    intro x
    rw [encSymbols, ih, digitsOf_succ, List.map_append]
    rfl

@[simp] theorem encSymbols_length (l x : Nat) : (encSymbols l x).length = l := by
  simp [encSymbols_eq_map]

/-- Symbol j from the left is that of digit l-1-j. -/
theorem encSymbols_getD {l j : Nat} (hj : j < l) (x : Nat) (b : Byte) :
    (encSymbols l x).getD j b = symbolOf (x / 71 ^ (l - 1 - j) % 71) := by
  simp [encSymbols_eq_map, digitsOf, hj]

theorem decFrom_cons_of_some {b : Byte} {d : Nat} (hb : indexOf b = some d) (i acc : Nat)
    (rest : List Byte) : decFrom i acc (b :: rest) = decFrom (i + 1) (acc * 71 + d) rest := by
  rw [decFrom, hb]
  rfl

theorem decFrom_cons_of_none {b : Byte} (hb : indexOf b = none) (i acc : Nat)
    (rest : List Byte) :
    decFrom i acc (b :: rest) = .error { err := .invalidSymbol, pos := i, len := 1 } := by
  rw [decFrom, hb]

/-- The fold over the symbols of digits, with the value `acc` so far. -/
theorem decFrom_map_symbolOf {ds : List Nat} (hds : ∀ d ∈ ds, d < 71) : ∀ i acc : Nat,
    decFrom i acc (ds.map symbolOf) = .ok (acc * 71 ^ ds.length + numOfDigits ds) := by
  induction ds with
  | nil => exact fun i acc => by simp [decFrom]
  | cons d ds ih =>
    intro i acc
    rw [List.map_cons, decFrom_cons_of_some (indexOf_symbolOf (hds d (.head _))),
      ih (fun e he => hds e (.tail _ he)), numOfDigits_cons, List.length_cons, pow_succ]
    congr 1
    ring

theorem decSymbols_map_symbolOf {ds : List Nat} (hds : ∀ d ∈ ds, d < 71) :
    decSymbols (ds.map symbolOf) = .ok (numOfDigits ds) := by
  rw [decSymbols, decFrom_map_symbolOf hds, zero_mul, zero_add]

/-- The fold passes over symbols and stops at the first byte that is none. -/
theorem decFrom_append_invalid {pre : List Byte} (hpre : ∀ a ∈ pre, indexOf a ≠ none) {b : Byte}
    (hb : indexOf b = none) (rest : List Byte) : ∀ i acc : Nat,
    decFrom i acc (pre ++ b :: rest) =
      .error { err := .invalidSymbol, pos := i + pre.length, len := 1 } := by
  induction pre with
  | nil => exact fun i acc => decFrom_cons_of_none hb i acc rest
  | cons a pre ih =>
    intro i acc
    obtain ⟨d, hd⟩ := Option.ne_none_iff_exists'.mp (hpre a (.head _))
    rw [List.cons_append, decFrom_cons_of_some hd, ih fun c hc => hpre c (.tail _ hc),
      List.length_cons, Nat.add_right_comm, Nat.add_assoc]

theorem decSymbols_append_invalid {pre : List Byte} (hpre : ∀ a ∈ pre, indexOf a ≠ none) {b : Byte}
    (hb : indexOf b = none) (rest : List Byte) :
    decSymbols (pre ++ b :: rest) =
      .error { err := .invalidSymbol, pos := pre.length, len := 1 } := by
  rw [decSymbols, decFrom_append_invalid hpre hb, zero_add]

/-- Settles O12: the sums of the statement are `numOfDigits ds`, which the fold computes; the symbols
of digits all have an index, so the fold stops at `b`. -/
theorem decodingFoldsOrNamesTheFirstInvalidSymbol :
    Obligations.DecodingFoldsOrNamesTheFirstInvalidSymbol := by
  unfold Obligations.DecodingFoldsOrNamesTheFirstInvalidSymbol
  refine ⟨fun ds hds => ⟨decSymbols_map_symbolOf hds, Nat.le_sub_one_of_lt (numOfDigits_lt hds),
    fun hlen => ?fits⟩, fun ds b rest hds hb => ?invalid⟩
  case fits =>
    calc numOfDigits ds < 71 ^ ds.length := numOfDigits_lt hds
      _ ≤ 71 ^ 3 := Nat.pow_le_pow_right (by decide) hlen
      _ < 2 ^ 19 := by decide
  case invalid =>
    have hpre : ∀ a ∈ ds.map symbolOf, indexOf a ≠ none := fun a ha => by
      obtain ⟨d, hd, rfl⟩ := List.mem_map.mp ha
      simp [indexOf_symbolOf (hds d hd)]
    rw [decSymbols_append_invalid hpre hb, List.length_map]

/-! ### The round trips (40_transform.md R106) -/

theorem decSymbols_encSymbols {l x : Nat} (hx : x < 71 ^ l) :
    decSymbols (encSymbols l x) = .ok x := by
  rw [encSymbols_eq_map, decSymbols_map_symbolOf fun _ => digitsOf_lt, numOfDigits_digitsOf l x hx]

theorem encSymbols_numOfDigits {ds : List Nat} (hds : ∀ d ∈ ds, d < 71) :
    encSymbols ds.length (numOfDigits ds) = ds.map symbolOf := by
  rw [encSymbols_eq_map, digitsOf_numOfDigits hds]

/-- The w-bit values are in the range of the codec (40_transform.md R101). -/
theorem maxval_lt_pow_symCount (w : Width) : maxval w < 71 ^ symCount w := by
  cases w <;> decide

/-- Settles O13: `digitsOf` and `numOfDigits` are inverse to each other, and reversal is its own
inverse. -/
theorem codecRoundTrips : Obligations.CodecRoundTrips := by
  unfold Obligations.CodecRoundTrips
  refine ⟨fun l x hx => decSymbols_encSymbols hx,
    fun ds hds => ⟨_, decSymbols_map_symbolOf hds, encSymbols_numOfDigits hds⟩,
    fun w x hx => ⟨reverseW w x, decSymbols_encSymbols ?_, reverseW_reverseW hx⟩⟩
  exact Nat.lt_of_le_of_lt (reverseW_le_maxval w x) (maxval_lt_pow_symCount w)

end Sys2Proof.Machine
end

section
/-! PROOFS of the family 40_transform.md, part 3: the commands REV, ENC, DEC, XENC and XDEC (R110 to
R130). -/

namespace Sys2Proof

/-- The word of a command as a number: OP, and WSEL at bit 8 (30_encoding.md R80). -/
theorem encode_eq_ofNat (i : Instr) :
    encode i = BitVec.ofNat 32 ((opcode i).toNat + 0x100 * i.wsel.toNat) := by
  apply BitVec.eq_of_toNat_eq
  simp only [encode, Machine.toNat_append_eq_add, BitVec.toNat_ofNat]
  omega

namespace Machine

/-! ### The symbols in SYM (10_state.md R30) -/

theorem symCount_le_three (w : Width) : symCount w ≤ 3 := by cases w <;> decide

theorem symByte_toNat (y : BitVec 24) (j : Nat) :
    (symByte y j).toNat = y.toNat / 256 ^ j % 256 := by
  rw [symByte, BitVec.extractLsb'_toNat, Nat.shiftRight_eq_div_pow, pow_mul]
  norm_num

/-- A string of up to three symbols in SYM as a number. -/
theorem symOfString_toNat (l : List Byte) :
    (symOfString l).toNat = (l.getD 0 0x00#8).toNat + 256 * (l.getD 1 0x00#8).toNat +
      65536 * (l.getD 2 0x00#8).toNat := by
  simp only [symOfString, toNat_append_eq_add]
  omega

/-- Symbol j of a SYM that holds a string is symbol j of the string, and 0x00 past its end. -/
theorem symByte_symOfString {l : List Byte} (hl : l.length ≤ 3) (j : Nat) :
    symByte (symOfString l) j = l.getD j 0x00#8 := by
  apply BitVec.eq_of_toNat_eq
  rw [symByte_toNat]
  match j with
  | 0 | 1 | 2 => rw [symOfString_toNat]; omega
  | j + 3 =>
    have hlt : (symOfString l).toNat < 256 ^ (j + 3) :=
      calc (symOfString l).toNat < 256 ^ 3 := (symOfString l).isLt
        _ ≤ 256 ^ (j + 3) := Nat.pow_le_pow_right (by decide) (by omega)
    rw [Nat.div_eq_of_lt hlt, List.getD_eq_default _ _ (by omega)]
    rfl

/-- SYM after ENC and XENC: the digits of the number, then 0x00 (R115). -/
theorem symByte_encSymbols (w : Width) (x : Nat) :
    (∀ j < symCount w, symByte (symOfString (encSymbols (symCount w) x)) j =
      symbolOf (x / 71 ^ (symCount w - 1 - j) % 71)) ∧
    (∀ j, symCount w ≤ j → symByte (symOfString (encSymbols (symCount w) x)) j = 0x00#8) := by
  have hlen : (encSymbols (symCount w) x).length ≤ 3 := by
    rw [encSymbols_length]
    exact symCount_le_three w
  have hbyte := symByte_symOfString hlen
  refine ⟨fun j hj => ?_, fun j hj => ?_⟩
  · rw [hbyte, encSymbols_getD hj]
  · rw [hbyte, List.getD_eq_default _ _ (by simpa using hj)]

/-- A SYM that holds the symbols of digits decodes to their number (R120). -/
theorem decSymbols_symString {w : Width} {y : BitVec 24} {ds : List Nat}
    (hlen : ds.length = symCount w) (hds : ∀ d ∈ ds, d < 71)
    (hsym : ∀ j < symCount w, symByte y j = symbolOf (ds.getD j 0)) :
    decSymbols (symString w y) =
      .ok (∑ j ∈ Finset.range (symCount w), ds.getD j 0 * 71 ^ (symCount w - 1 - j)) := by
  have hstring : symString w y = ds.map symbolOf := by
    refine List.ext_getElem (by simp [symString, hlen]) fun j h₁ h₂ => ?_
    have hj : j < ds.length := by simpa using h₂
    simp [symString, hsym j (hlen ▸ hj), hj]
  rw [hstring, decSymbols_map_symbolOf hds, numOfDigits, hlen]

/-- The first symbol of SYM that is not in the alphabet is the one named (R120). -/
theorem decSymbols_symString_invalid {w : Width} {y : BitVec 24} {j : Nat} (hj : j < symCount w)
    (hbad : indexOf (symByte y j) = none) (hfirst : ∀ k < j, indexOf (symByte y k) ≠ none) :
    decSymbols (symString w y) = .error { err := .invalidSymbol, pos := j, len := 1 } := by
  obtain ⟨k, hk⟩ : ∃ k, symCount w = j + (k + 1) := ⟨symCount w - j - 1, by omega⟩
  have hpre : ∀ a ∈ (List.range j).map (symByte y), indexOf a ≠ none := by
    simpa using hfirst
  rw [symString, hk, List.range_add, List.range_succ_eq_map]
  simpa using decSymbols_append_invalid hpre hbad _

/-! ### The outcomes of each command with a well-formed WSEL -/

section
variable {wsel : WSel} (h : wsel ≠ 0b11#2) {s : State}
include h

theorem exec_rev_of_le (hle : s.opa.toNat ≤ maxval (effWidth wsel s.cfg)) :
    exec (.rev wsel) s = .next
      (completeRes (BitVec.ofNat 32 (reverseW (effWidth wsel s.cfg) s.opa.toNat)) s) := by
  rw [exec, execRev, withWidth_of_ne h, checkRange_of_le hle, settle_ok]

theorem exec_rev_of_lt (hlt : maxval (effWidth wsel s.cfg) < s.opa.toNat) :
    exec (.rev wsel) s = .next (raise operandRange s) := by
  rw [exec, execRev, withWidth_of_ne h, checkRange_of_lt hlt, settle_error]

theorem exec_enc_of_le
    (hle : s.opa.toNat ≤ Config.base ^ symCount (effWidth wsel s.cfg) - 1) :
    exec (.enc wsel) s = .next (completeSym
      (symOfString (encSymbols (symCount (effWidth wsel s.cfg)) s.opa.toNat)) s) := by
  rw [exec, execEnc, withWidth_of_ne h, checkRange_of_le hle, settle_ok]

theorem exec_enc_of_lt
    (hlt : Config.base ^ symCount (effWidth wsel s.cfg) - 1 < s.opa.toNat) :
    exec (.enc wsel) s = .next (raise operandRange s) := by
  rw [exec, execEnc, withWidth_of_ne h, checkRange_of_lt hlt, settle_error]

theorem exec_dec_of_ok {v : Nat}
    (hdec : decSymbols (symString (effWidth wsel s.cfg) s.sym) = .ok v) :
    exec (.dec wsel) s = .next (completeRes (BitVec.ofNat 32 v) s) := by
  rw [exec, execDec, withWidth_of_ne h]
  simp only [hdec, settle_ok]

theorem exec_dec_of_error {r : Raised}
    (hdec : decSymbols (symString (effWidth wsel s.cfg) s.sym) = .error r) :
    exec (.dec wsel) s = .next (raise r s) := by
  rw [exec, execDec, withWidth_of_ne h]
  simp only [hdec, settle_error]

theorem exec_xenc_of_le (hle : s.opa.toNat ≤ maxval (effWidth wsel s.cfg)) :
    exec (.xenc wsel) s = .next (completeSym (symOfString
      (encSymbols (symCount (effWidth wsel s.cfg))
        (reverseW (effWidth wsel s.cfg) s.opa.toNat))) s) := by
  rw [exec, execXenc, withWidth_of_ne h, checkRange_of_le hle, settle_ok]

theorem exec_xenc_of_lt (hlt : maxval (effWidth wsel s.cfg) < s.opa.toNat) :
    exec (.xenc wsel) s = .next (raise operandRange s) := by
  rw [exec, execXenc, withWidth_of_ne h, checkRange_of_lt hlt, settle_error]

theorem exec_xdec_of_le {v : Nat}
    (hdec : decSymbols (symString (effWidth wsel s.cfg) s.sym) = .ok v)
    (hle : v ≤ maxval (effWidth wsel s.cfg)) :
    exec (.xdec wsel) s = .next
      (completeRes (BitVec.ofNat 32 (reverseW (effWidth wsel s.cfg) v)) s) := by
  rw [exec, execXdec, withWidth_of_ne h]
  simp only [hdec, checkRange_of_le hle, settle_ok]

theorem exec_xdec_of_lt {v : Nat}
    (hdec : decSymbols (symString (effWidth wsel s.cfg) s.sym) = .ok v)
    (hlt : maxval (effWidth wsel s.cfg) < v) :
    exec (.xdec wsel) s = .next (raise operandRange s) := by
  rw [exec, execXdec, withWidth_of_ne h]
  simp only [hdec, checkRange_of_lt hlt, settle_error]

theorem exec_xdec_of_error {r : Raised}
    (hdec : decSymbols (symString (effWidth wsel s.cfg) s.sym) = .error r) :
    exec (.xdec wsel) s = .next (raise r s) := by
  rw [exec, execXdec, withWidth_of_ne h]
  simp only [hdec, settle_error]

end

/-! ### The commands, as the spec states them -/

/-- Settles O14: a completing REV puts the reversed operand in RES, whose bits are mirrored. -/
theorem revReversesOpaIntoRes : Obligations.RevReversesOpaIntoRes := by
  unfold Obligations.RevReversesOpaIntoRes
  intro wsel s h
  refine ⟨encode_eq_ofNat (.rev wsel), fun hle => ⟨_, exec_rev_of_le h hle, fun i => ?_⟩,
    exec_rev_of_lt h⟩
  rw [getLsbD_ofNat_reverseW, BitVec.testBit_toNat]

/-- Settles O15: a completing ENC puts the string of symbols in SYM, whose bytes are the symbols. -/
theorem encWritesTheSymbolsOfOpa : Obligations.EncWritesTheSymbolsOfOpa := by
  unfold Obligations.EncWritesTheSymbolsOfOpa
  intro wsel s h
  exact ⟨encode_eq_ofNat (.enc wsel),
    fun hle => ⟨_, exec_enc_of_le h hle, symByte_encSymbols _ s.opa.toNat⟩, exec_enc_of_lt h⟩

/-- Settles O16: the string that DEC reads decodes to the number of its digits, or to the error of
its first invalid symbol. -/
theorem decWritesTheValueOfTheSymbols : Obligations.DecWritesTheValueOfTheSymbols := by
  unfold Obligations.DecWritesTheValueOfTheSymbols
  intro wsel s h
  exact ⟨encode_eq_ofNat (.dec wsel),
    fun ds hlen hds hsym => exec_dec_of_ok h (decSymbols_symString hlen hds hsym),
    fun j hj hbad hfirst => exec_dec_of_error h (decSymbols_symString_invalid hj hbad hfirst)⟩

/-- Settles O17: the number that a completing XENC encodes is the reversed operand. -/
theorem xencWritesTheSymbolsOfReversedOpa : Obligations.XencWritesTheSymbolsOfReversedOpa := by
  unfold Obligations.XencWritesTheSymbolsOfReversedOpa
  intro wsel s h
  refine ⟨encode_eq_ofNat (.xenc wsel), fun hle => ⟨reverseW _ s.opa.toNat, _,
    exec_xenc_of_le h hle, reverseW_le_maxval _ _, fun i hi => ?_, symByte_encSymbols _ _⟩,
    exec_xenc_of_lt h⟩
  rw [testBit_reverseW, decide_eq_true hi, Bool.true_and, BitVec.testBit_toNat]

/-- Settles O18: XDEC decodes as DEC does, so an invalid symbol comes first; the range check and the
reversal then see the decoded number. -/
theorem xdecWritesTheReversedValueOfTheSymbols :
    Obligations.XdecWritesTheReversedValueOfTheSymbols := by
  unfold Obligations.XdecWritesTheReversedValueOfTheSymbols
  intro wsel s h
  refine ⟨encode_eq_ofNat (.xdec wsel), fun ds hlen hds hsym => ?value,
    fun j hj hbad hfirst => exec_xdec_of_error h (decSymbols_symString_invalid hj hbad hfirst)⟩
  case value =>
    have hdec := decSymbols_symString hlen hds hsym
    exact ⟨fun hle => ⟨_, exec_xdec_of_le h hdec hle, getLsbD_ofNat_reverseW _ _⟩,
      exec_xdec_of_lt h hdec⟩

end Machine
end Sys2Proof
end

section
/-! PROOFS of the family 41_word.md: the character table lookups (10_state.md R35, R36), PACK (R145)
and UNPACK (R150). -/

namespace Sys2Proof.Machine

/-! ### Entries of the character table (10_state.md R33, R35) -/

/-- The entry of character `c` is the byte at 0x400 + 4c (20_memory.md R59). -/
theorem chartab_eq_read {c : Byte} {n : Nat} (hc : c.toNat = n) (s : State) :
    chartab s c = s.mem.read (0x400 + 4 * n) := by
  rw [← hc]
  rfl

/-- The 256 characters are the bytes up to 0xFF. -/
theorem toNat_ofNat_of_le_255 {c : Nat} (hc : c ≤ 0xFF) : (BitVec.ofNat 8 c).toNat = c := by
  rw [BitVec.toNat_ofNat]
  omega

/-- V is bit 7 of the entry. -/
theorem entryValid_eq_true_iff (e : Byte) : entryValid e = true ↔ 128 ≤ e.toNat := by
  have hentry := toNat_entry e
  cases hv : entryValid e with
  | false =>
    rw [hv, Bool.toNat_false] at hentry
    simp only [Bool.false_eq_true, false_iff]
    omega
  | true =>
    rw [hv, Bool.toNat_true] at hentry
    simp only [true_iff]
    omega

/-- A character is in the table with code `k` when its entry is `k` with V set. -/
theorem charToCode_eq_some_iff (s : State) (c : Byte) (k : BitVec 7) :
    charToCode s c = some k ↔ (chartab s c).toNat = 128 + k.toNat := by
  have hentry := toNat_entry (chartab s c)
  have hvalid := Bool.toNat_le (entryValid (chartab s c))
  rw [charToCode, Option.ite_none_right_eq_some, entryValid_eq_true_iff, Option.some_inj,
    ← BitVec.toNat_inj]
  omega

theorem charToCode_eq_none_iff (s : State) (c : Byte) :
    charToCode s c = none ↔ (chartab s c).toNat < 128 := by
  rw [charToCode, ite_eq_right_iff, entryValid_eq_true_iff]
  simp

theorem hasCode_eq_true_iff (s : State) (k : BitVec 7) (c : Byte) :
    hasCode s k c = true ↔ (chartab s c).toNat = 128 + k.toNat := by
  rw [hasCode, beq_iff_eq, charToCode_eq_some_iff]

/-! ### The reverse lookup (10_state.md R36) -/

/-- The search for a code, as a search for an entry by its address. -/
theorem find?_allBytes (s : State) (k : BitVec 7) :
    allBytes.find? (hasCode s k) = ((List.range 256).find? fun c =>
      decide ((s.mem.read (0x400 + 4 * c)).toNat = 128 + k.toNat)).map (BitVec.ofNat 8) := by
  rw [allBytes, List.find?_map]
  congr 1
  refine List.find?_congr fun c hc => ?_
  have hc : c ≤ 0xFF := Nat.le_of_lt_succ (List.mem_range.mp hc)
  rw [Function.comp_apply, Bool.eq_iff_iff, hasCode_eq_true_iff,
    chartab_eq_read (toNat_ofNat_of_le_255 hc), decide_eq_true_iff]

/-- A hit is the lowest byte whose entry has the code. -/
theorem codeToChar_of_lowest {s : State} {k : BitVec 7} {c : Nat} (hc : c ≤ 0xFF)
    (hit : (s.mem.read (0x400 + 4 * c)).toNat = 128 + k.toNat)
    (lowest : ∀ d < c, (s.mem.read (0x400 + 4 * d)).toNat ≠ 128 + k.toNat) :
    codeToChar s k = (BitVec.ofNat 8 c, 0) := by
  have hfind : allBytes.find? (hasCode s k) = some (BitVec.ofNat 8 c) := by
    rw [find?_allBytes, List.find?_range_eq_some.mpr
      ⟨decide_eq_true hit, List.mem_range.mpr (Nat.lt_succ_of_le hc), by simpa using lowest⟩,
      Option.map_some]
  simp only [codeToChar, hfind]

/-- A miss is the fallback. -/
theorem codeToChar_of_miss {s : State} {k : BitVec 7}
    (miss : ∀ c ≤ 0xFF, (s.mem.read (0x400 + 4 * c)).toNat ≠ 128 + k.toNat) :
    codeToChar s k = (s.cfg.fallback, 1) := by
  have hfind : allBytes.find? (hasCode s k) = none := by
    rw [find?_allBytes, Option.map_eq_none_iff, List.find?_eq_none]
    intro c hc
    simpa using miss c (Nat.le_of_lt_succ (List.mem_range.mp hc))
  simp only [codeToChar, hfind]

/-! ### The words of PACK and UNPACK as numbers (41_word.md R140 to R142, R150) -/

theorem composeWord16_toNat (profile : BitVec 1) (col : BitVec 6) (k : BitVec 7) :
    (composeWord16 profile col k).toNat =
      (if profile = 1#1 then 0xE000 else 0) + 128 * col.toNat + k.toNat := by
  rw [composeWord16, toNat_append_eq_add, toNat_append_eq_add, lead]
  split <;> simp only [BitVec.toNat_ofNat] <;> omega

theorem composeWord8_toNat (col : BitVec 6) (k : BitVec 7) :
    (composeWord8 col k).toNat = 128 * col.toNat + k.toNat := by
  rw [composeWord8, toNat_append_eq_add]
  omega

/-- PACK's word fits at w = 16, and at w = 8 with colour code 0 or 1; the profile counts at w = 16
only. -/
theorem packWord_of_fits {w : Width} {col : BitVec 6} (hfit : w = .w16 ∨ col.toNat ≤ 1) (cfg : Cfg)
    (k : BitVec 7) :
    packWord w cfg col k = .ok ((if w = .w16 ∧ cfg.profile = 1#1 then 0xE000 else 0) +
      128 * col.toNat + k.toNat) := by
  cases w with
  | w16 => simp [packWord, composeWord16_toNat]
  | w8 =>
    have hcol : col.toNat ≤ 1 := by simpa using hfit
    have hle : ¬ 255 < (composeWord8 col k).toNat := by
      rw [composeWord8_toNat]
      omega
    rw [packWord, if_neg hle, composeWord8_toNat]
    simp

theorem packWord_w8_of_two_le {col : BitVec 6} (hcol : 2 ≤ col.toNat) (cfg : Cfg) (k : BitVec 7) :
    packWord .w8 cfg col k = .error { err := .valueTooLarge } := by
  have hlt : 255 < (composeWord8 col k).toNat := by
    rw [composeWord8_toNat]
    omega
  rw [packWord, if_pos hlt]

/-- The leading bits and the colour code that UNPACK returns are the operand's bits above the
character code, at both widths. -/
theorem leadField_colorField_toNat {w : Width} {x : Word} (hx : x.toNat ≤ maxval w) :
    64 * (leadField w x).toNat + (colorField w x).toNat = x.toNat / 128 := by
  cases w with
  | w8 =>
    have hx : x.toNat ≤ 255 := hx
    simp only [leadField, colorField, toNat_append_eq_add, BitVec.extractLsb'_toNat,
      BitVec.toNat_ofNat, Nat.shiftRight_eq_div_pow]
    omega
  | w16 =>
    have hx : x.toNat ≤ 65535 := hx
    simp only [leadField, colorField, BitVec.extractLsb'_toNat, Nat.shiftRight_eq_div_pow]
    omega

/-- RES[15:0] is the operand, with the character and the miss flag above it (R150). -/
theorem unpackWord_eq {w : Width} {s : State} {ch : Byte} {miss : BitVec 1}
    (hx : s.opa.toNat ≤ maxval w)
    (hfound : codeToChar s (s.opa.extractLsb' 0 7) = (ch, miss)) :
    unpackWord w s =
      BitVec.ofNat 32 (s.opa.toNat + 0x10000 * ch.toNat + 0x1000000 * miss.toNat) := by
  have hhigh := leadField_colorField_toNat hx
  have hlow : (s.opa.extractLsb' 0 7).toNat = s.opa.toNat % 128 := by simp
  apply BitVec.eq_of_toNat_eq
  simp only [unpackWord, hfound, toNat_append_eq_add, BitVec.toNat_ofNat, hlow]
  omega

/-! ### The operands of PACK, once in range (41_word.md R145) -/

/-- The entry PACK reads is that of the whole operand, once the operand is a byte. -/
theorem chartab_opa {s : State} (hopa : s.opa.toNat ≤ 0xFF) :
    chartab s (s.opa.extractLsb' 0 8) = s.mem.read (0x400 + 4 * s.opa.toNat) := by
  refine chartab_eq_read ?_ s
  simp only [BitVec.extractLsb'_toNat, Nat.shiftRight_zero]
  omega

/-- A valid entry gives PACK its code, the entry without V. -/
theorem exists_charToCode_opa {s : State} (hopa : s.opa.toNat ≤ 0xFF)
    (hvalid : 128 ≤ (s.mem.read (0x400 + 4 * s.opa.toNat)).toNat) :
    ∃ k, charToCode s (s.opa.extractLsb' 0 8) = some k ∧
      k.toNat = (s.mem.read (0x400 + 4 * s.opa.toNat)).toNat - 128 := by
  have hsome : charToCode s (s.opa.extractLsb' 0 8) ≠ none := by
    rw [Ne, charToCode_eq_none_iff, chartab_opa hopa]
    omega
  obtain ⟨k, hk⟩ := Option.ne_none_iff_exists'.mp hsome
  have hentry := (charToCode_eq_some_iff s _ k).mp hk
  rw [chartab_opa hopa] at hentry
  exact ⟨k, hk, by omega⟩

/-- The colour code PACK uses is the whole operand, once the operand has six bits. -/
theorem toNat_colour {s : State} (hopb : s.opb.toNat ≤ 0x3F) :
    (s.opb.extractLsb' 0 6).toNat = s.opb.toNat := by
  simp only [BitVec.extractLsb'_toNat, Nat.shiftRight_zero]
  omega

/-! ### The outcomes of PACK and UNPACK with a well-formed WSEL -/

section
variable {wsel : WSel} (h : wsel ≠ 0b11#2) {s : State}
include h

theorem exec_pack_of_opa_gt (hopa : 0xFF < s.opa.toNat) :
    exec (.pack wsel) s = .next (raise operandRange s) := by
  rw [exec, execPack, withWidth_of_ne h, checkRange_of_lt hopa, settle_error]

theorem exec_pack_of_opb_gt (hopa : s.opa.toNat ≤ 0xFF) (hopb : 0x3F < s.opb.toNat) :
    exec (.pack wsel) s = .next (raise operandRange s) := by
  rw [exec, execPack, withWidth_of_ne h, checkRange_of_le hopa, checkRange_of_lt hopb, settle_error]

theorem exec_pack_of_unknown (hopa : s.opa.toNat ≤ 0xFF) (hopb : s.opb.toNat ≤ 0x3F)
    (hk : charToCode s (s.opa.extractLsb' 0 8) = none) :
    exec (.pack wsel) s = .next (raise { err := .unknownCharacter } s) := by
  rw [exec, execPack, withWidth_of_ne h, checkRange_of_le hopa, checkRange_of_le hopb]
  simp only [hk, settle_error]

theorem exec_pack_of_ok (hopa : s.opa.toNat ≤ 0xFF) (hopb : s.opb.toNat ≤ 0x3F) {k : BitVec 7}
    (hk : charToCode s (s.opa.extractLsb' 0 8) = some k) {v : Nat}
    (hv : packWord (effWidth wsel s.cfg) s.cfg (s.opb.extractLsb' 0 6) k = .ok v) :
    exec (.pack wsel) s = .next (completeRes (BitVec.ofNat 32 v) s) := by
  rw [exec, execPack, withWidth_of_ne h, checkRange_of_le hopa, checkRange_of_le hopb]
  simp only [hk, hv, settle_ok]

theorem exec_pack_of_error (hopa : s.opa.toNat ≤ 0xFF) (hopb : s.opb.toNat ≤ 0x3F) {k : BitVec 7}
    (hk : charToCode s (s.opa.extractLsb' 0 8) = some k) {r : Raised}
    (hr : packWord (effWidth wsel s.cfg) s.cfg (s.opb.extractLsb' 0 6) k = .error r) :
    exec (.pack wsel) s = .next (raise r s) := by
  rw [exec, execPack, withWidth_of_ne h, checkRange_of_le hopa, checkRange_of_le hopb]
  simp only [hk, hr, settle_error]

theorem exec_unpack_of_le (hle : s.opa.toNat ≤ maxval (effWidth wsel s.cfg)) :
    exec (.unpack wsel) s =
      .next (completeRes (unpackWord (effWidth wsel s.cfg) s) s) := by
  rw [exec, execUnpack, withWidth_of_ne h, checkRange_of_le hle, settle_ok]

theorem exec_unpack_of_lt (hlt : maxval (effWidth wsel s.cfg) < s.opa.toNat) :
    exec (.unpack wsel) s = .next (raise operandRange s) := by
  rw [exec, execUnpack, withWidth_of_ne h, checkRange_of_lt hlt, settle_error]

end

/-! ### The commands, as the spec states them -/

/-- Settles O21: the checks of PACK leave one clause each, and past them the code is the entry
without V, so the composed word is the sum of the statement. -/
theorem packComposesTheWord : Obligations.PackComposesTheWord := by
  unfold Obligations.PackComposesTheWord
  intro wsel s h
  refine ⟨encode_eq_ofNat (.pack wsel), fun hopa hopb hvalid hfit => ?word, exec_pack_of_opa_gt h,
    exec_pack_of_opb_gt h, fun hopa hopb hinvalid => ?unknown,
    fun hopa hopb hvalid hw hcol => ?tooLarge⟩
  case word =>
    obtain ⟨k, hk, hcode⟩ := exists_charToCode_opa hopa hvalid
    rw [← toNat_colour hopb] at hfit
    have hword := packWord_of_fits hfit s.cfg k
    rw [toNat_colour hopb, hcode] at hword
    exact exec_pack_of_ok h hopa hopb hk hword
  case unknown =>
    refine exec_pack_of_unknown h hopa hopb ((charToCode_eq_none_iff s _).mpr ?_)
    rwa [chartab_opa hopa]
  case tooLarge =>
    obtain ⟨k, hk, -⟩ := exists_charToCode_opa hopa hvalid
    rw [← toNat_colour hopb] at hcol
    exact exec_pack_of_error h hopa hopb hk (hw ▸ packWord_w8_of_two_le hcol s.cfg k)

/-- Settles O22: the code UNPACK looks up is the operand's low seven bits; a hit and a miss differ
in the character and the flag above the operand. -/
theorem unpackFindsTheLowestCharacter : Obligations.UnpackFindsTheLowestCharacter := by
  unfold Obligations.UnpackFindsTheLowestCharacter
  intro wsel s h
  have hcode : s.opa.toNat % 128 = (s.opa.extractLsb' 0 7).toNat := by simp
  simp only [hcode]
  refine ⟨encode_eq_ofNat (.unpack wsel), fun c hc hle hit lowest => ?hit, fun hle miss => ?miss,
    exec_unpack_of_lt h⟩
  case hit =>
    have hword := unpackWord_eq hle (codeToChar_of_lowest hc hit lowest)
    rw [toNat_ofNat_of_le_255 hc] at hword
    rw [exec_unpack_of_le h hle, hword]
    rfl
  case miss =>
    rw [exec_unpack_of_le h hle, unpackWord_eq hle (codeToChar_of_miss miss)]
    rfl

end Sys2Proof.Machine
end

section
/-! PROOFS of the family 42_evaluator.md, part 1: what EVAL reads (R160), whitespace (R161),
comments (R162) and trim (R163). -/

namespace Sys2Proof.Machine

/-! ### The line (R160) -/

@[simp] theorem line_length (s : State) : (line s).length = s.llen.toNat := by simp [line]

theorem line_getElem? (s : State) {i : Nat} (hi : i < s.llen.toNat) :
    (line s)[i]? = some (s.mem.read (0x100 + i)) := by
  rw [line, List.getElem?_map, List.getElem?_range hi]
  rfl

/-- Two states with one LLEN whose buffers agree below it have the same line. -/
theorem line_congr {s t : State} (hlen : s.llen = t.llen)
    (hbuf : ∀ i < s.llen.toNat, s.mem.read (0x100 + i) = t.mem.read (0x100 + i)) :
    line s = line t := by
  rw [line, line, ← hlen]
  exact List.map_congr_left fun i hi => hbuf i (List.mem_range.mp hi)

/-- Two states whose tables agree look up the same codes. -/
theorem charToCode_congr {s t : State}
    (htab : ∀ c ≤ 0xFF, s.mem.read (0x400 + 4 * c) = t.mem.read (0x400 + 4 * c)) :
    charToCode s = charToCode t := by
  funext c
  have hentry : chartab s c = chartab t c := htab c.toNat (by omega)
  rw [charToCode, charToCode, hentry]

/-! ### The outcomes of EVAL (R174) -/

theorem exec_eval_illegal (s : State) : exec (.eval 0b11#2) s = .next (illegal s) := rfl

section
variable {wsel : WSel} (h : wsel ≠ 0b11#2) {s : State}
include h

theorem exec_eval_of_gt (hlen : Config.lineMax < s.llen.toNat) :
    exec (.eval wsel) s = .next (raise operandRange s) := by
  rw [exec, execEval, withWidth_of_ne h, checkRange_of_lt hlen, settle_error]

theorem exec_eval_of_ok (hlen : s.llen.toNat ≤ Config.lineMax) {r : Option Nat}
    (hr : evalLine s.cfg.gate.toNat (charToCode s) (effWidth wsel s.cfg) (line s) = .ok r) :
    exec (.eval wsel) s = .next (completeEval s r) := by
  rw [exec, execEval, withWidth_of_ne h, checkRange_of_le hlen]
  simp only [hr, settle_ok]

theorem exec_eval_of_error (hlen : s.llen.toNat ≤ Config.lineMax) {r : Raised}
    (hr : evalLine s.cfg.gate.toNat (charToCode s) (effWidth wsel s.cfg) (line s) = .error r) :
    exec (.eval wsel) s = .next (raise r s) := by
  rw [exec, execEval, withWidth_of_ne h, checkRange_of_le hlen]
  simp only [hr, settle_error]

end

/-- EVAL has the same outcome with another memory that gives the same line and the same codes. -/
theorem exec_eval_withMem (wsel : WSel) {s t : State} {m : Memory}
    (hline : line { s with mem := m } = line s)
    (hcode : charToCode { s with mem := m } = charToCode s)
    (ht : exec (.eval wsel) s = .next t) :
    exec (.eval wsel) { s with mem := m } = .next { t with mem := m } := by
  by_cases hw : wsel = 0b11#2
  · subst hw
    rw [exec_eval_illegal] at ht ⊢
    cases ht
    rfl
  rcases Nat.lt_or_ge Config.lineMax s.llen.toNat with hlen | hlen
  · rw [exec_eval_of_gt hw hlen] at ht
    cases ht
    exact exec_eval_of_gt hw hlen
  cases hr : evalLine s.cfg.gate.toNat (charToCode s) (effWidth wsel s.cfg) (line s) with
  | error r =>
    rw [exec_eval_of_error hw hlen hr] at ht
    cases ht
    rw [← hline, ← hcode] at hr
    exact exec_eval_of_error (s := { s with mem := m }) hw hlen hr
  | ok r =>
    rw [exec_eval_of_ok hw hlen hr] at ht
    cases ht
    rw [← hline, ← hcode] at hr
    rw [exec_eval_of_ok (s := { s with mem := m }) hw hlen hr]
    cases r <;> rfl

/-- Settles O54: EVAL sees memory through the line and the codes only, and both read the bytes the
statement lets agree. -/
theorem evalReadsTheFirstLlenBytes : Obligations.EvalReadsTheFirstLlenBytes := by
  unfold Obligations.EvalReadsTheFirstLlenBytes
  exact ⟨fun s => ⟨line_length s, fun i hi => line_getElem? s hi⟩,
    fun wsel s t m hbuf htab =>
      exec_eval_withMem wsel (line_congr rfl hbuf) (charToCode_congr htab),
    fun wsel s h hlen => exec_eval_of_gt h hlen⟩

/-! ### Comments (R162) -/

/-- "//" stands at index `k`. -/
def slashesAt (l : List Byte) (k : Nat) : Prop := l[k]? = some chSlash ∧ l[k + 1]? = some chSlash

theorem slashesAt_cons_succ (b : Byte) (l : List Byte) (k : Nat) :
    slashesAt (b :: l) (k + 1) ↔ slashesAt l k := by
  simp [slashesAt]

/-- The text is empty before a "//" at its start. -/
theorem textLength_of_slashesAt_zero {l : List Byte} (h : slashesAt l 0) : textLength l = 0 := by
  match l with
  | [] => rfl
  | [_] => exact absurd h.2 (by simp)
  | b :: c :: rest =>
    obtain ⟨hb, hc⟩ := h
    rw [textLength, if_pos ⟨by simpa using hb, by simpa using hc⟩]

/-- A byte that does not begin a "//" belongs to the text. -/
theorem textLength_cons {b : Byte} {l : List Byte} (h : ¬ slashesAt (b :: l) 0) :
    textLength (b :: l) = textLength l + 1 := by
  match l with
  | [] => rfl
  | c :: rest =>
    have hbc : ¬(b = chSlash ∧ c = chSlash) := by simpa [slashesAt] using h
    rw [textLength, if_neg hbc, Nat.add_comm]

theorem textLength_of_first {l : List Byte} : ∀ {k : Nat}, slashesAt l k →
    (∀ j < k, ¬ slashesAt l j) → textLength l = k := by
  induction l with
  | nil => exact fun h _ => absurd h.1 (by simp)
  | cons b l ih =>
    intro k hk hfirst
    cases k with
    | zero => exact textLength_of_slashesAt_zero hk
    | succ k =>
      rw [textLength_cons (hfirst 0 k.succ_pos), ih ((slashesAt_cons_succ b l k).mp hk)]
      exact fun j hj hs => hfirst (j + 1) (by omega) ((slashesAt_cons_succ b l j).mpr hs)

theorem textLength_of_none {l : List Byte} (h : ∀ k, ¬ slashesAt l k) :
    textLength l = l.length := by
  induction l with
  | nil => rfl
  | cons b l ih =>
    rw [textLength_cons (h 0), ih fun k hs => h (k + 1) ((slashesAt_cons_succ b l k).mpr hs)]
    rfl

/-- A line without '/' is text to its end. -/
theorem textLength_of_slash_not_mem {l : List Byte} (h : chSlash ∉ l) : textLength l = l.length :=
  textLength_of_none fun _ hs => h (List.mem_of_getElem? hs.1)

/-- Settles O24: `slashesAt` is the condition of the statement at an index. -/
theorem commentBeginsAtTheFirstDoubleSlash : Obligations.CommentBeginsAtTheFirstDoubleSlash := by
  unfold Obligations.CommentBeginsAtTheFirstDoubleSlash
  exact fun l => ⟨fun k hk hk' hfirst => textLength_of_first ⟨hk, hk'⟩ hfirst, textLength_of_none⟩

/-! ### Spans -/

theorem slice_getElem? (l : List Byte) {a z i : Nat} (h : a + i < z) :
    (slice l a z)[i]? = l[a + i]? := by
  rw [slice, List.getElem?_drop, List.getElem?_take_of_lt h]

theorem slice_length {l : List Byte} {a z : Nat} (hz : z ≤ l.length) :
    (slice l a z).length = z - a := by
  rw [slice, List.length_drop, List.length_take, Nat.min_eq_left hz]

theorem slice_self (l : List Byte) : slice l 0 l.length = l := by simp [slice]

/-- A span of a span is a span of the line. -/
theorem slice_slice (l : List Byte) {a z i j : Nat} (h : a + j ≤ z) :
    slice (slice l a z) i j = slice l (a + i) (a + j) := by
  simp only [slice, List.take_drop, List.take_take, List.drop_drop, Nat.min_eq_left h]

/-- The three pieces of a span are spans of their own. -/
theorem slice_pieces {l u v w : List Byte} {a z : Nat} (haz : a ≤ z)
    (h : slice l a z = u ++ v ++ w) :
    slice l a (a + u.length) = u ∧ slice l (a + u.length) (a + u.length + v.length) = v ∧
      slice l (a + u.length + v.length) z = w := by
  have hlen : u.length + v.length + w.length ≤ z - a := by
    have := congrArg List.length h
    simp only [slice, List.length_drop, List.length_take, List.length_append] at this
    omega
  have piece : ∀ i j, j ≤ z - a → slice l (a + i) (a + j) = slice (u ++ v ++ w) i j :=
    fun i j hj => by rw [← h, slice_slice l (by omega)]
  refine ⟨?_, ?_, ?_⟩
  · rw [← Nat.add_zero a, Nat.add_assoc, Nat.zero_add, piece 0 _ (by omega)]
    simp [slice]
  · rw [Nat.add_assoc, piece _ _ (by omega)]
    simp [slice, List.take_add]
  · have hz : z = a + (z - a) := by omega
    rw [hz, Nat.add_assoc, piece _ _ (by omega), slice, List.take_of_length_le (by simp; omega)]
    simp

theorem mem_slice_of_getElem? {l : List Byte} {a z j : Nat} {b : Byte} (haj : a ≤ j) (hjz : j < z)
    (hb : l[j]? = some b) : b ∈ slice l a z := by
  refine List.mem_of_getElem? (i := j - a) ?_
  rw [slice_getElem? l (by omega), Nat.add_sub_cancel' haj, hb]

/-! ### Whitespace and trim (R161, R163) -/

theorem isWs_iff (b : Byte) :
    isWs b = true ↔ b ∈ [0x09#8, 0x0A#8, 0x0B#8, 0x0C#8, 0x0D#8, 0x20#8] := by
  simp only [isWs, List.mem_cons, List.not_mem_nil, or_false, Bool.or_eq_true, Bool.and_eq_true,
    decide_eq_true_eq, beq_iff_eq, ← BitVec.toNat_inj, BitVec.toNat_ofNat]
  omega

theorem takeWhile_isWs_of_head {t : List Byte} (h : ∀ b ∈ t.head?, isWs b = false) :
    t.takeWhile isWs = [] := by
  cases t with
  | nil => rfl
  | cons b t => exact List.takeWhile_cons_of_neg (by simp [h b rfl])

theorem dropWhile_isWs_of_head {t : List Byte} (h : ∀ b ∈ t.head?, isWs b = false) :
    t.dropWhile isWs = t := by
  cases t with
  | nil => rfl
  | cons b t => exact List.dropWhile_cons_of_neg (by simp [h b rfl])

/-- Only the whitespace after the last other byte is stripped. -/
theorem stripRight_append {t ws : List Byte} (hlast : ∀ b ∈ t.getLast?, isWs b = false)
    (hws : ∀ b ∈ ws, isWs b = true) : stripRight (t ++ ws) = t := by
  rw [stripRight, List.reverse_append, List.dropWhile_append_of_pos (by simpa using hws),
    dropWhile_isWs_of_head (by simpa using hlast), List.reverse_reverse]

/-- A span of whitespace only trims to the empty span at its end. -/
theorem trim_of_isWs {l : List Byte} {a z : Nat} (h : ∀ b ∈ slice l a z, isWs b = true) :
    trim l a z = (a + (slice l a z).length, a + (slice l a z).length) := by
  simp [trim, List.takeWhile_eq_self_iff.mpr h, List.dropWhile_eq_nil_iff.mpr h, stripRight]

theorem Part.token_ne_nil {p : Part} (hp : p.trimmed) : p.token ≠ [] := by
  obtain ⟨-, -, hne, -⟩ := hp
  exact hne

/-- Trimming a part leaves its token. -/
theorem trim_of_part {l : List Byte} {a z : Nat} {p : Part} (h : slice l a z = p.text)
    (hp : p.trimmed) :
    trim l a z = (a + p.before.length, a + p.before.length + p.token.length) := by
  obtain ⟨hbefore, hafter, hne, hhead, hlast⟩ := hp
  have hhead' : ∀ b ∈ (p.token ++ p.after).head?, isWs b = false := by
    rwa [List.head?_append_of_ne_nil _ hne]
  have htake : p.text.takeWhile isWs = p.before := by
    rw [Part.text, List.append_assoc, List.takeWhile_append_of_pos hbefore,
      takeWhile_isWs_of_head hhead', List.append_nil]
  have hdrop : p.text.dropWhile isWs = p.token ++ p.after := by
    rw [Part.text, List.append_assoc, List.dropWhile_append_of_pos hbefore,
      dropWhile_isWs_of_head hhead']
  simp only [trim, h, htake, hdrop, stripRight_append hlast hafter]

/-- A text is whitespace only, or a token with whitespace around it. -/
theorem isWs_or_exists_part (t : List Byte) :
    (∀ b ∈ t, isWs b = true) ∨ ∃ p : Part, p.trimmed ∧ p.text = t := by
  by_cases hws : ∀ b ∈ t, isWs b = true
  · exact .inl hws
  have hrest : ¬ ∀ b ∈ t.dropWhile isWs, isWs b = true := fun h => hws fun b hb => by
    rw [← List.takeWhile_append_dropWhile (p := isWs) (l := t), List.mem_append] at hb
    exact hb.elim List.mem_takeWhile_imp (h b)
  have hne : (t.dropWhile isWs).rdropWhile isWs ≠ [] := fun h =>
    hrest (List.rdropWhile_eq_nil_iff.mp h)
  refine .inr ⟨⟨t.takeWhile isWs, (t.dropWhile isWs).rdropWhile isWs,
    (t.dropWhile isWs).rtakeWhile isWs⟩, ⟨fun b => List.mem_takeWhile_imp,
    fun b => List.mem_rtakeWhile_imp, hne, fun b hb => ?head, fun b hb => ?last⟩, ?text⟩
  case head =>
    have hdrop : (t.dropWhile isWs).head? = some b := by
      rw [← List.rdropWhile_append_rtakeWhile (p := isWs) (l := t.dropWhile isWs),
        List.head?_append_of_ne_nil _ hne]
      exact hb
    have := List.head?_dropWhile_not isWs t
    rw [hdrop] at this
    exact this
  case last =>
    obtain ⟨_, rfl⟩ := List.mem_getLast?_eq_getLast hb
    simpa using List.rdropWhile_last_not isWs _ hne
  case text =>
    rw [Part.text, List.append_assoc, List.rdropWhile_append_rtakeWhile,
      List.takeWhile_append_dropWhile]

/-- Settles O25: the trimmed span is empty at the end of a span of whitespace, and else the token of
a part, which lies between two pieces of whitespace. -/
theorem trimRemovesWhitespaceAtBothEnds : Obligations.TrimRemovesWhitespaceAtBothEnds := by
  unfold Obligations.TrimRemovesWhitespaceAtBothEnds
  refine ⟨isWs_iff, fun l a z haz hz => ?_⟩
  have hlen := slice_length (a := a) hz
  rcases isWs_or_exists_part (slice l a z) with hws | ⟨p, hp, htext⟩
  · have hend : a + (slice l a z).length = z := by omega
    rw [trim_of_isWs hws, hend]
    exact ⟨haz, le_refl z, le_refl z,
      fun j haj hjz b hb => hws b (mem_slice_of_getElem? haj hjz hb), .inl rfl,
      fun j hzj hjz => absurd hjz (by omega), .inl rfl⟩
  · obtain ⟨hbefore, htoken, hafter⟩ := slice_pieces haz htext.symm
    rw [trim_of_part htext.symm hp]
    obtain ⟨hwsBefore, hwsAfter, hne, hhead, hlast⟩ := hp
    have hpos := List.length_pos_of_ne_nil hne
    rw [← htext, Part.text, List.length_append, List.length_append] at hlen
    have hfirst : p.token.head? = l[a + p.before.length + 0]? := by
      rw [List.head?_eq_getElem?, ← slice_getElem? l (Nat.add_lt_add_left hpos _), htoken]
    have hfinal : p.token.getLast? = l[a + p.before.length + (p.token.length - 1)]? := by
      rw [List.getLast?_eq_getElem?,
        ← slice_getElem? l (Nat.add_lt_add_left (Nat.sub_one_lt_of_lt hpos) _), htoken]
    refine ⟨by omega, by omega, by omega, fun j haj hjs b hb => ?_, .inr fun b hb => ?_,
      fun j hej hjz b hb => ?_, .inr fun b hb => ?_⟩
    · exact hwsBefore b (hbefore ▸ mem_slice_of_getElem? haj hjs hb)
    · exact hhead b (hfirst.trans hb)
    · exact hwsAfter b (hafter ▸ mem_slice_of_getElem? hej hjz hb)
    · exact hlast b (hfinal.trans (by rwa [← Nat.add_sub_assoc hpos]))

end Sys2Proof.Machine
end

section
/-! PROOFS of the family 42_evaluator.md, part 2: the literals (R164 to R168) and the bit-index
tokens (R169). -/

namespace Sys2Proof.Machine

/-! ### Byte classes (R164 to R169) -/

theorem isBin_iff (b : Byte) : isBin b = true ↔ b = 0x30#8 ∨ b = 0x31#8 := by
  simp [isBin, ← BitVec.toNat_inj]

theorem isDigit_iff (b : Byte) : isDigit b = true ↔ 0x30 ≤ b.toNat ∧ b.toNat ≤ 0x39 := by
  simp [isDigit]

theorem isH_iff (b : Byte) : isH b = true ↔ b = 0x68#8 ∨ b = 0x48#8 := by
  simp [isH, ← BitVec.toNat_inj]

theorem isB_iff (b : Byte) : isB b = true ↔ b = 0x62#8 ∨ b = 0x42#8 := by
  simp [isB, ← BitVec.toNat_inj]

theorem isDigit_of_isBin {b : Byte} (h : isBin b = true) : isDigit b = true := by
  rcases (isBin_iff b).mp h with rfl | rfl <;> rfl

theorem isDigit_of_isH {b : Byte} (h : isH b = true) : isDigit b = false := by
  rcases (isH_iff b).mp h with rfl | rfl <;> rfl

theorem isDigit_of_isB {b : Byte} (h : isB b = true) : isDigit b = false := by
  rcases (isB_iff b).mp h with rfl | rfl <;> rfl

theorem isH_of_isB {b : Byte} (h : isB b = true) : isH b = false := by
  rcases (isB_iff b).mp h with rfl | rfl <;> rfl

/-- A hex digit of value `n` is a decimal digit, or a letter of either case (R166). -/
theorem isHex_and_hexVal_iff (b : Byte) (n : Nat) :
    isHex b = true ∧ hexVal b = n ↔
      (n < 10 ∧ b.toNat = 0x30 + n) ∨
        (10 ≤ n ∧ n < 16 ∧ (b.toNat = 0x41 + (n - 10) ∨ b.toNat = 0x61 + (n - 10))) := by
  simp only [isHex, hexVal, digitVal, Bool.or_eq_true, Bool.and_eq_true, isDigit_iff,
    decide_eq_true_eq]
  split
  · omega
  · split <;> omega

/-! ### Digits (00_scope.md R8) -/

@[simp] theorem ofDigits_concat (base : Nat) (ds : List Nat) (d : Nat) :
    ofDigits base (ds ++ [d]) = ofDigits base ds * base + d := by
  simp [ofDigits]

/-- The number read from digits is their sum, each by its place. -/
theorem ofDigits_eq_sum (base : Nat) (ds : List Nat) :
    ofDigits base ds =
      ∑ i ∈ Finset.range ds.length, ds.getD i 0 * base ^ (ds.length - 1 - i) := by
  induction ds using List.reverseRecOn with
  | nil => rfl
  | append_singleton ds d ih =>
    have hplace : ∀ i ∈ Finset.range ds.length,
        (ds ++ [d]).getD i 0 * base ^ (ds.length - i) =
          ds.getD i 0 * base ^ (ds.length - 1 - i) * base := by
      intro i hi
      have hlt := Finset.mem_range.mp hi
      have hexp : ds.length - i = ds.length - 1 - i + 1 := by omega
      rw [List.getD_append _ _ _ _ hlt, hexp, pow_succ, mul_assoc]
    rw [ofDigits_concat, ih, List.length_append, List.length_singleton, Finset.sum_range_succ,
      Nat.add_sub_cancel, Finset.sum_congr rfl hplace, Finset.sum_mul]
    simp

/-- The number read from digit bytes, as the statements write it. -/
theorem ofDigits_map_digitVal (base : Nat) (t : List Byte) :
    ofDigits base (t.map digitVal) =
      ∑ i ∈ Finset.range t.length, ((t.getD i 0).toNat - 0x30) * base ^ (t.length - 1 - i) := by
  have hdigit : ∀ i, (t.map digitVal).getD i 0 = (t.getD i 0).toNat - 0x30 := fun i =>
    List.getD_map t 0 digitVal
  simp only [ofDigits_eq_sum, List.length_map, hdigit]

/-! ### The rules, one by one (R164 to R167, R169) -/

theorem binLit_eq_some_iff (gate : Nat) (t : List Byte) (v : Nat) :
    binLit gate t = some v ↔ t ≠ [] ∧ (∀ b ∈ t, isBin b = true) ∧ gate < t.length ∧
      ofDigits 2 (t.map digitVal) = v := by
  simp [binLit, and_assoc]

theorem decLit_eq_some_iff (t : List Byte) (v : Nat) :
    decLit t = some v ↔
      t ≠ [] ∧ (∀ b ∈ t, isDigit b = true) ∧ ofDigits 10 (t.map digitVal) = v := by
  simp [decLit, and_assoc]

theorem hexLit_eq_some_iff (t : List Byte) (v : Nat) :
    hexLit t = some v ↔ ∃ (h : Byte) (ds : List Byte), t = h :: ds ∧ isH h = true ∧ ds ≠ [] ∧
      (∀ d ∈ ds, isHex d = true) ∧ ofDigits 16 (ds.map hexVal) = v := by
  cases t <;> simp [hexLit, and_assoc]

theorem charLit_eq_some_iff (code : Byte → Option (BitVec 7)) (t : List Byte) (v : Nat) :
    charLit code t = some v ↔
      ∃ (c : Byte) (k : BitVec 7), t = [c] ∧ code c = some k ∧ v = k.toNat := by
  match t with
  | [] => simp [charLit]
  | [c] => simp [charLit, eq_comm]
  | _ :: _ :: _ => simp [charLit]

theorem bitIndex_eq_some_iff (t : List Byte) (n : Nat) :
    bitIndex t = some n ↔ ∃ (b : Byte) (ds : List Byte), t = b :: ds ∧ isB b = true ∧ ds ≠ [] ∧
      (∀ d ∈ ds, isDigit d = true) ∧ ofDigits 10 (ds.map digitVal) = n := by
  cases t <;> simp [bitIndex, and_assoc]

/-- Settles O26: the value of `binLit_eq_some_iff` is the sum of the statement. -/
theorem binaryLiteralValue : Obligations.BinaryLiteralValue := by
  unfold Obligations.BinaryLiteralValue
  intro gate t v ht
  simp only [binLit_eq_some_iff, isBin_iff, ofDigits_map_digitVal, ne_eq, ht, not_false_eq_true,
    true_and, eq_comm (b := v)]

/-! ### The order of the rules (R168, R170) -/

section
variable {gate : Nat} (code : Byte → Option (BitVec 7)) {t : List Byte} {v : Nat}

theorem lit_of_binLit (h : binLit gate t = some v) : lit gate code t = some v := by
  simp [lit, h]

theorem lit_of_decLit (hbin : binLit gate t = none) (h : decLit t = some v) :
    lit gate code t = some v := by
  simp [lit, hbin, h]

/-- A token that begins with no digit matches neither rule 1 nor rule 2. -/
theorem binLit_decLit_of_head {b : Byte} {ds : List Byte} (h : isDigit b = false) :
    binLit gate (b :: ds) = none ∧ decLit (b :: ds) = none := by
  have hbin : isBin b = false := by
    by_contra hb
    simp [isDigit_of_isBin (by simpa using hb)] at h
  simp [binLit, decLit, h, hbin]

/-- Rule 4 matches one-byte tokens only. -/
theorem charLit_of_ne_nil {b : Byte} {ds : List Byte} (h : ds ≠ []) :
    charLit code (b :: ds) = none := by
  obtain ⟨c, ds, rfl⟩ := List.exists_cons_of_ne_nil h
  rfl

/-- A token of rule 3 matches no other rule. -/
theorem others_of_hexLit (h : hexLit t = some v) :
    binLit gate t = none ∧ decLit t = none ∧ charLit code t = none := by
  obtain ⟨b, ds, rfl, hb, hds, -, -⟩ := (hexLit_eq_some_iff t v).mp h
  obtain ⟨hbin, hdec⟩ := binLit_decLit_of_head (gate := gate) (ds := ds) (isDigit_of_isH hb)
  exact ⟨hbin, hdec, charLit_of_ne_nil code hds⟩

theorem lit_of_hexLit (h : hexLit t = some v) : lit gate code t = some v := by
  obtain ⟨hbin, hdec, -⟩ := others_of_hexLit (gate := gate) code h
  simp [lit, hbin, hdec, h]

theorem lit_of_charLit (hbin : binLit gate t = none) (hdec : decLit t = none)
    (h : charLit code t = some v) : lit gate code t = some v := by
  cases hhex : hexLit t with
  | none => simp [lit, hbin, hdec, hhex, h]
  | some u =>
    obtain ⟨-, -, hchar⟩ := others_of_hexLit (gate := gate) code hhex
    simp [hchar] at h

/-- A bit-index token is no literal: it begins with 'b' or 'B' and has two bytes or more (R170). -/
theorem lit_of_bitIndex (h : bitIndex t = some v) : lit gate code t = none := by
  obtain ⟨b, ds, rfl, hb, hds, -, -⟩ := (bitIndex_eq_some_iff t v).mp h
  obtain ⟨hbin, hdec⟩ := binLit_decLit_of_head (gate := gate) (ds := ds) (isDigit_of_isB hb)
  simp [lit, hbin, hdec, charLit_of_ne_nil code hds, hexLit, isH_of_isB hb]

end

theorem decLit_isSome_of_binLit {gate : Nat} {t : List Byte} {v : Nat}
    (h : binLit gate t = some v) : (decLit t).isSome := by
  obtain ⟨hne, hall, -, -⟩ := (binLit_eq_some_iff gate t v).mp h
  exact Option.isSome_of_eq_some
    ((decLit_eq_some_iff t _).mpr ⟨hne, fun b hb => isDigit_of_isBin (hall b hb), rfl⟩)

/-- Settles O27: past the value, a token of '0' and '1' only matches rule 2, so the gate alone says
which of rules 1 and 2 reads it. -/
theorem decimalLiteralValue : Obligations.DecimalLiteralValue := by
  unfold Obligations.DecimalLiteralValue
  intro gate code t v ht
  refine ⟨?value, fun hbin hgate => ?closed, fun hbin hgate => ?opened⟩
  case value =>
    simp only [decLit_eq_some_iff, isDigit_iff, ofDigits_map_digitVal, ne_eq, ht,
      not_false_eq_true, true_and, eq_comm (b := v)]
  case closed =>
    have hnone : binLit gate t = none := by simp [binLit, Nat.not_lt.mpr hgate]
    have hdec := (decLit_eq_some_iff t _).mpr
      ⟨ht, fun b hb => isDigit_of_isBin ((isBin_iff b).mpr (hbin b hb)), rfl⟩
    rw [lit_of_decLit code hnone hdec, hdec]
  case opened =>
    have hsome := (binLit_eq_some_iff gate t _).mpr
      ⟨ht, fun b hb => (isBin_iff b).mpr (hbin b hb), hgate, rfl⟩
    rw [lit_of_binLit code hsome, hsome]

/-- Settles O28: the digit relation of the statement is that of hex digits and their values, so the
numbers are the values of the digits. -/
theorem hexLiteralValue : Obligations.HexLiteralValue := by
  unfold Obligations.HexLiteralValue
  intro t v
  have hdigits : ∀ (ds : List Byte) (ns : List Nat),
      List.Forall₂ (fun b n => isHex b = true ∧ hexVal b = n) ds ns ↔
        (∀ d ∈ ds, isHex d = true) ∧ ds.map hexVal = ns := fun ds ns => by
    rw [List.forall₂_and_left, ← List.forall₂_map_left_iff, List.forall₂_eq_eq_eq]
  simp only [hexLit_eq_some_iff, ← isHex_and_hexVal_iff, hdigits, isH_iff, ← ofDigits_eq_sum]
  refine exists_congr fun h => exists_congr fun ds => ?_
  constructor
  · rintro ⟨ht, hh, hds, hall, hv⟩
    exact ⟨_, ht, hh, hds, ⟨hall, rfl⟩, hv.symm⟩
  · rintro ⟨ns, ht, hh, hds, ⟨hall, rfl⟩, hv⟩
    exact ⟨ht, hh, hds, hall, hv.symm⟩

/-- Settles O29: one lemma per rule, each with the rules before it that do not match. -/
theorem literalRulesAreTriedInOrder : Obligations.LiteralRulesAreTriedInOrder := by
  unfold Obligations.LiteralRulesAreTriedInOrder
  intro gate code t _
  refine ⟨fun v h => ⟨lit_of_binLit code h, decLit_isSome_of_binLit h⟩,
    fun v hbin h => lit_of_decLit code hbin h,
    fun v h => ⟨lit_of_hexLit code h, others_of_hexLit code h⟩,
    fun v hbin hdec h => lit_of_charLit code hbin hdec h,
    fun hbin hdec hhex hchar => by simp [lit, hbin, hdec, hhex, hchar],
    fun hchar hdec => ?oneDigit, fun h => ?bitIndex⟩
  case oneDigit =>
    obtain ⟨v, hv⟩ := Option.isSome_iff_exists.mp hchar
    obtain ⟨u, hu⟩ := Option.isSome_iff_exists.mp hdec
    obtain ⟨c, k, rfl, -, -⟩ := (charLit_eq_some_iff code t v).mp hv
    obtain ⟨-, hall, -⟩ := (decLit_eq_some_iff [c] u).mp hu
    exact ⟨c, rfl, hall c (.head _)⟩
  case bitIndex =>
    obtain ⟨n, hn⟩ := Option.isSome_iff_exists.mp h
    exact lit_of_bitIndex code hn

end Sys2Proof.Machine
end

section
/-! PROOFS of the family 42_evaluator.md, part 3: terms, parts and whole lines (R170, R171, R173),
with character literals (R167) and bit indices (R169) as lines of their own. -/

namespace Sys2Proof.Machine

/-! ### Terms, parts and bodies (R170, R171) -/

section
variable {gate : Nat} {code : Byte → Option (BitVec 7)} {w : Width} {l : List Byte}

theorem term_of_lit {a z v : Nat} (h : lit gate code (slice l a z) = some v) :
    term gate code w l a z = .ok v := by
  simp only [term, h]

theorem term_of_bitIndex {a z n : Nat} (h : bitIndex (slice l a z) = some n) (hn : 1 ≤ n)
    (hnw : n ≤ bits w) : term gate code w l a z = .ok (2 ^ (n - 1)) := by
  simp only [term, lit_of_bitIndex code h, h]
  rw [if_neg (by omega)]

theorem term_of_bitIndex_out {a z n : Nat} (h : bitIndex (slice l a z) = some n)
    (hn : n = 0 ∨ bits w < n) :
    term gate code w l a z = .error { err := .bitIndexOutOfRange, pos := a, len := z - a } := by
  simp only [term, lit_of_bitIndex code h, h]
  rw [if_pos (by omega)]

theorem term_of_none {a z : Nat} (hlit : lit gate code (slice l a z) = none)
    (hbit : bitIndex (slice l a z) = none) :
    term gate code w l a z = .error { err := .unparsableToken, pos := a, len := z - a } := by
  simp only [term, hlit, hbit]

/-- The value of a part is that of its token as a term. -/
theorem partValue_of_part {a z : Nat} {p : Part} (h : slice l a z = p.text) (hp : p.trimmed) :
    partValue gate code w l (a, z) =
      term gate code w l (a + p.before.length) (a + p.before.length + p.token.length) := by
  have hpos := List.length_pos_of_ne_nil (Part.token_ne_nil hp)
  simp only [partValue, trim_of_part h hp]
  rw [if_neg (by omega)]

/-- A part of whitespace only is unparsable at its start, with length 0. -/
theorem partValue_of_isWs {a z : Nat} (h : ∀ b ∈ slice l a z, isWs b = true) :
    partValue gate code w l (a, z) = .error { err := .unparsableToken, pos := a, len := 0 } := by
  simp only [partValue, trim_of_isWs h, if_true]

/-- A text without '+' is one raw part. -/
theorem rawParts_of_plus_not_mem {t : List Byte} (h : chPlus ∉ t) : ∀ start at' : Nat,
    rawParts start at' t = [(start, at' + t.length)] := by
  induction t with
  | nil => exact fun _ _ => rfl
  | cons b t ih =>
    intro start at'
    obtain ⟨hb, ht⟩ := not_or.mp (List.mem_cons.not.mp h)
    rw [rawParts, if_neg (Ne.symm hb), ih ht, List.length_cons, Nat.add_assoc, Nat.add_comm 1]

theorem sumParts_of_error {value : Nat × Nat → Except Raised Nat} {p : Nat × Nat} {r : Raised}
    (h : value p = .error r) (acc : Nat) (rest : List (Nat × Nat)) :
    sumParts value acc (p :: rest) = .error r := by
  simp only [sumParts, h]

/-- The sum of one part is its value. -/
theorem sumParts_singleton (value : Nat × Nat → Except Raised Nat) (p : Nat × Nat) :
    sumParts value 0 [p] = value p := by
  cases h : value p <;> simp [sumParts, h]

theorem bodyValue_of_lit {a z v : Nat} (h : lit gate code (slice l a z) = some v) :
    bodyValue gate code w l a z = .ok v := by
  simp only [bodyValue, h]

/-- A body that is no literal is the sum of its parts. -/
theorem bodyValue_of_lit_none {a z : Nat} (h : lit gate code (slice l a z) = none) :
    bodyValue gate code w l a z =
      sumParts (partValue gate code w l) 0 (rawParts a a (slice l a z)) := by
  simp only [bodyValue, h]

/-- A whole line without '+' that is no literal is one part. -/
theorem bodyValue_of_plus_not_mem (hlit : lit gate code l = none) (hplus : chPlus ∉ l) :
    bodyValue gate code w l 0 l.length = partValue gate code w l (0, l.length) := by
  rw [← slice_self l] at hlit
  rw [bodyValue_of_lit_none hlit, slice_self, rawParts_of_plus_not_mem hplus, sumParts_singleton,
    Nat.zero_add]

/-! ### A line and its body (R171, R173) -/

theorem evalLine_of_ok {a z v : Nat} (htrim : trim l 0 (textLength l) = (a, z)) (haz : a ≠ z)
    (hv : bodyValue gate code w l a z = .ok v) (hle : v ≤ maxval w) :
    evalLine gate code w l = .ok (some v) := by
  simp only [evalLine, htrim, if_neg haz, hv, if_neg (Nat.not_lt.mpr hle)]

theorem evalLine_of_error {a z : Nat} {r : Raised} (htrim : trim l 0 (textLength l) = (a, z))
    (haz : a ≠ z) (hr : bodyValue gate code w l a z = .error r) :
    evalLine gate code w l = .error r := by
  simp only [evalLine, htrim, if_neg haz, hr]

end

/-- A line that is one token: no comment, and no whitespace at its ends. -/
def isToken (l : List Byte) : Prop :=
  textLength l = l.length ∧ Part.trimmed { before := [], token := l, after := [] }

section
variable {gate : Nat} {code : Byte → Option (BitVec 7)} {w : Width} {l : List Byte}

theorem slice_eq_text_of_isToken :
    slice l 0 l.length = Part.text { before := [], token := l, after := [] } := by
  simp [slice_self, Part.text]

theorem trim_of_isToken (h : isToken l) : trim l 0 (textLength l) = (0, l.length) := by
  rw [h.1, trim_of_part slice_eq_text_of_isToken h.2]
  simp

theorem length_ne_of_isToken (h : isToken l) : 0 ≠ l.length :=
  (List.length_pos_of_ne_nil (Part.token_ne_nil h.2)).ne

/-- A token without '+' that is no literal has its value as a term. -/
theorem bodyValue_of_isToken (h : isToken l) (hlit : lit gate code l = none) (hplus : chPlus ∉ l) :
    bodyValue gate code w l 0 l.length = term gate code w l 0 l.length := by
  rw [bodyValue_of_plus_not_mem hlit hplus, partValue_of_part slice_eq_text_of_isToken h.2]
  simp

end

/-! ### Lines of one byte (R167) -/

section
variable (gate : Nat) (code : Byte → Option (BitVec 7)) {c : Byte}

/-- A digit alone is read as a number, in base 2 or 10, whatever its table entry. -/
theorem lit_digit (h : isDigit c = true) : lit gate code [c] = some (c.toNat - 0x30) := by
  have hval : ∀ base, ofDigits base ([c].map digitVal) = c.toNat - 0x30 := fun base => by
    simp [ofDigits, digitVal]
  have hdec : decLit [c] = some (c.toNat - 0x30) :=
    (decLit_eq_some_iff [c] _).mpr ⟨by simp, by simpa using h, hval 10⟩
  cases hbin : binLit gate [c] with
  | none => exact lit_of_decLit code hbin hdec
  | some v =>
    obtain ⟨-, -, -, hv⟩ := (binLit_eq_some_iff gate [c] v).mp hbin
    rw [lit_of_binLit code hbin, ← hv, hval]

/-- Any other byte alone is a literal exactly when it is in the table. -/
theorem lit_byte (h : isDigit c = false) :
    lit gate code [c] = (code c).map BitVec.toNat := by
  obtain ⟨hbin, hdec⟩ := binLit_decLit_of_head (gate := gate) (ds := []) h
  simp [lit, hbin, hdec, hexLit, charLit]

theorem bitIndex_byte : bitIndex [c] = none := by simp [bitIndex]

end

theorem isToken_byte {c : Byte} (h : isWs c = false) : isToken [c] :=
  ⟨rfl, by simp [h]⟩

/-- The line of LLEN = 1. -/
theorem line_of_llen_one {s : State} (h : s.llen = 1) : line s = [s.mem.read 0x100] := by
  rw [line, h]
  rfl

/-- A one-byte line that is no literal is unparsable: '+' at its empty first part, any other byte
over itself. -/
theorem bodyValue_byte_of_lit_none {gate : Nat} {code : Byte → Option (BitVec 7)} {w : Width}
    {c : Byte} (hws : isWs c = false) (hlit : lit gate code [c] = none) :
    bodyValue gate code w [c] 0 [c].length =
      .error { err := .unparsableToken, pos := 0, len := if c.toNat = 0x2B then 0 else 1 } := by
  by_cases hplus : c = chPlus
  · subst hplus
    rw [bodyValue_of_lit_none (l := [chPlus]) (z := [chPlus].length) hlit]
    exact sumParts_of_error (partValue_of_isWs (by simp [slice])) 0 _
  · have hne : c.toNat ≠ 0x2B := fun h => hplus (BitVec.eq_of_toNat_eq h)
    rw [if_neg hne]
    exact (bodyValue_of_isToken (isToken_byte hws) hlit (by simpa using Ne.symm hplus)).trans
      (term_of_none hlit bitIndex_byte)

theorem maxval_ge (w : Width) : 255 ≤ maxval w := by cases w <;> decide

/-- EVAL of a line that is a token and a literal that fits. -/
theorem exec_eval_of_lit {wsel : WSel} (h : wsel ≠ 0b11#2) {s : State} {v : Nat}
    (hlen : s.llen.toNat ≤ Config.lineMax) (htok : isToken (line s))
    (hlit : lit s.cfg.gate.toNat (charToCode s) (line s) = some v)
    (hv : v ≤ maxval (effWidth wsel s.cfg)) :
    exec (.eval wsel) s = .next (completeRes (BitVec.ofNat 32 v) s) := by
  rw [← slice_self (line s)] at hlit
  exact exec_eval_of_ok h hlen
    (evalLine_of_ok (trim_of_isToken htok) (length_ne_of_isToken htok) (bodyValue_of_lit hlit) hv)

/-- Settles O55: a one-byte token is a digit, a byte of the table or neither, as a term and as a
line. -/
theorem characterLiteralValue : Obligations.CharacterLiteralValue := by
  unfold Obligations.CharacterLiteralValue
  refine ⟨charLit_eq_some_iff, charToCode_eq_some_iff,
    fun gate code w l at' c hslice => ?term, fun wsel s h hllen hws => ?line⟩
  case term =>
    rw [← isDigit_iff]
    refine ⟨fun hdigit => term_of_lit (by rw [hslice, lit_digit gate code hdigit]),
      fun hdigit => ?_⟩
    have hlit := lit_byte gate code (Bool.eq_false_of_not_eq_true hdigit)
    refine ⟨fun k hk => term_of_lit (by rw [hslice, hlit, hk]; rfl), fun hnone => ?_⟩
    rw [term_of_none (by rw [hslice, hlit, hnone]; rfl) (by rw [hslice, bitIndex_byte]),
      Nat.add_sub_cancel_left]
  case line =>
    have hline := line_of_llen_one hllen
    have htok : isToken (line s) := hline ▸ isToken_byte hws
    have hlen : s.llen.toNat ≤ Config.lineMax := by rw [hllen]; decide
    have hmax := maxval_ge (effWidth wsel s.cfg)
    dsimp only
    rw [← isDigit_iff]
    refine ⟨fun hdigit => ?digit, fun hdigit hentry => ?code, fun hdigit hentry => ?miss⟩
    case digit =>
      refine exec_eval_of_lit h hlen htok (by rw [hline]; exact lit_digit _ _ hdigit) ?_
      omega
    case code =>
      obtain ⟨k, hk⟩ : ∃ k, charToCode s (s.mem.read 0x100) = some k :=
        Option.ne_none_iff_exists'.mp fun hnone =>
          absurd ((charToCode_eq_none_iff s _).mp hnone) (Nat.not_lt.mpr hentry)
      have hcode : (s.mem.read (0x400 + 4 * (s.mem.read 0x100).toNat)).toNat - 128 = k.toNat :=
        Nat.sub_eq_of_eq_add' ((charToCode_eq_some_iff s _ k).mp hk)
      rw [hcode]
      refine exec_eval_of_lit h hlen htok ?_ (by omega)
      rw [hline, lit_byte _ _ (Bool.eq_false_of_not_eq_true hdigit), hk]
      rfl
    case miss =>
      have hlit : lit s.cfg.gate.toNat (charToCode s) [s.mem.read 0x100] = none := by
        rw [lit_byte _ _ (Bool.eq_false_of_not_eq_true hdigit),
          (charToCode_eq_none_iff s _).mpr hentry]
        rfl
      have hr : bodyValue s.cfg.gate.toNat (charToCode s) (effWidth wsel s.cfg) (line s) 0
          (line s).length = _ := hline ▸ bodyValue_byte_of_lit_none hws hlit
      exact exec_eval_of_error h hlen
        (evalLine_of_error (trim_of_isToken htok) (length_ne_of_isToken htok) hr)

/-! ### Lines that are a bit index (R169) -/

/-- The bytes of a bit-index token are 'b', 'B' and digits. -/
theorem mem_of_bitIndex {t : List Byte} {n : Nat} (h : bitIndex t = some n) {c : Byte}
    (hc : c ∈ t) :
    isB c = true ∨ isDigit c = true := by
  obtain ⟨b, ds, rfl, hb, -, hds, -⟩ := (bitIndex_eq_some_iff t n).mp h
  rcases List.mem_cons.mp hc with rfl | hc
  · exact .inl hb
  · exact .inr (hds c hc)

/-- No byte of a bit-index token is whitespace or begins a comment or separates parts. -/
theorem not_separator_of_isB_or_isDigit {c : Byte} (h : isB c = true ∨ isDigit c = true) :
    isWs c = false ∧ c ≠ chSlash ∧ c ≠ chPlus := by
  rcases h with hb | hd
  · rcases (isB_iff c).mp hb with rfl | rfl <;> decide
  · obtain ⟨hlo, hhi⟩ := (isDigit_iff c).mp hd
    refine ⟨?_, by rintro rfl; exact absurd hlo (by decide),
      by rintro rfl; exact absurd hlo (by decide)⟩
    simp only [isWs, Bool.or_eq_false_iff, Bool.and_eq_false_iff, decide_eq_false_iff_not,
      beq_eq_false_iff_ne]
    omega

/-- A line that matches the bit-index rule is one token, with no '+' in it. -/
theorem isToken_of_bitIndex {t : List Byte} {n : Nat} (h : bitIndex t = some n) :
    isToken t ∧ chPlus ∉ t := by
  have hclass := fun c (hc : c ∈ t) => not_separator_of_isB_or_isDigit (mem_of_bitIndex h hc)
  have hslash : chSlash ∉ t := fun hc => (hclass _ hc).2.1 rfl
  have hplus : chPlus ∉ t := fun hc => (hclass _ hc).2.2 rfl
  have hne : t ≠ [] := by
    rintro rfl
    simp [bitIndex] at h
  exact ⟨⟨textLength_of_slash_not_mem hslash, by simp, by simp, hne,
    fun b hb => (hclass b (List.mem_of_mem_head? hb)).1,
    fun b hb => (hclass b (List.mem_of_mem_getLast? hb)).1⟩, hplus⟩

theorem two_pow_le_maxval {w : Width} {n : Nat} (h1 : 1 ≤ n) (hn : n ≤ bits w) :
    2 ^ (n - 1) ≤ maxval w := by
  have hlt : 2 ^ (n - 1) < 2 ^ bits w := Nat.pow_lt_pow_right (by decide) (by omega)
  unfold maxval
  omega

/-- Settles O56: a bit-index token is no literal and holds no '/', '+' or whitespace, so in a part
and on a line its value is that of the term. -/
theorem bitIndexValue : Obligations.BitIndexValue := by
  unfold Obligations.BitIndexValue
  refine ⟨fun t n => ?token, fun gate code w l a n p htext hp hn => ?part,
    fun wsel s n h hlen hn => ?line⟩
  case token =>
    simp only [bitIndex_eq_some_iff, isB_iff, isDigit_iff, ofDigits_map_digitVal, eq_comm (b := n)]
  case part =>
    obtain ⟨-, htoken, -⟩ := slice_pieces (Nat.le_add_right a _) htext
    rw [partValue_of_part htext hp]
    rw [← htoken] at hn
    refine ⟨term_of_bitIndex hn, fun hout => ?_⟩
    rw [term_of_bitIndex_out hn hout, Nat.add_sub_cancel_left]
  case line =>
    obtain ⟨htok, hplus⟩ := isToken_of_bitIndex hn
    have hbody : bodyValue s.cfg.gate.toNat (charToCode s) (effWidth wsel s.cfg) (line s) 0
        (line s).length = _ := bodyValue_of_isToken htok (lit_of_bitIndex _ hn) hplus
    have hterm := hn
    rw [← slice_self (line s)] at hterm
    refine ⟨fun h1 hnw => ?_, fun hout => ?_⟩
    · exact exec_eval_of_ok h hlen (evalLine_of_ok (trim_of_isToken htok)
        (length_ne_of_isToken htok) (hbody.trans (term_of_bitIndex hterm h1 hnw))
        (two_pow_le_maxval h1 hnw))
    · have hr := evalLine_of_error (trim_of_isToken htok) (length_ne_of_isToken htok)
        (hbody.trans (term_of_bitIndex_out hterm hout))
      rw [exec_eval_of_error h hlen hr, line_length]
      rfl

end Sys2Proof.Machine
end

section
/-! PROOFS of the family 42_evaluator.md, part 4: the saturating evaluator (R175). Every accumulator
it holds is `accSet false` of the unbounded number that EVAL holds in its place, so each of its
functions is EVAL's function with `accSet false` applied to the value. -/

namespace Sys2Proof.Machine

/-! ### The accumulator of a number -/

/-- The accumulator of a number that fits. -/
theorem accSet_of_le {n : Nat} (h : n ≤ accMax) :
    accSet false n = { value := BitVec.ofNat 17 n, ovf := false } := by
  simp [accSet, Nat.not_lt.mpr h]

/-- The accumulator of a number that does not fit. -/
theorem accSet_of_gt {n : Nat} (h : accMax < n) :
    accSet false n = { value := BitVec.ofNat 17 accMax, ovf := true } := by
  simp [accSet, h]

theorem toNat_ofNat_accMax {n : Nat} (h : n ≤ accMax) : (BitVec.ofNat 17 n).toNat = n := by
  rw [BitVec.toNat_ofNat, Nat.mod_eq_of_lt]
  exact Nat.lt_of_le_of_lt h (by decide)

/-- One more digit commutes with saturation: an overflow stays one, since the base is not 0. -/
theorem accDigit_accSet {base : Nat} (hbase : 1 ≤ base) (n d : Nat) :
    accDigit base (accSet false n) d = accSet false (n * base + d) := by
  rcases Nat.lt_or_ge accMax n with hn | hn
  · have hgrow : n ≤ n * base := Nat.le_mul_of_pos_right n hbase
    rw [accSet_of_gt hn, accSet_of_gt (by omega)]
    rfl
  · rw [accSet_of_le hn, accDigit, toNat_ofNat_accMax hn]

/-- A sum commutes with saturation: both terms are at most the sum. -/
theorem accAdd_accSet (m n : Nat) :
    accAdd (accSet false m) (accSet false n) = accSet false (m + n) := by
  rcases Nat.lt_or_ge accMax m with hm | hm
  · rw [accSet_of_gt hm, accSet_of_gt (by omega : accMax < m + n)]
    rfl
  rcases Nat.lt_or_ge accMax n with hn | hn
  · rw [accSet_of_gt hn, accSet_of_gt (by omega : accMax < m + n), accAdd, Bool.or_true]
    rfl
  · rw [accSet_of_le hm, accSet_of_le hn, accAdd, toNat_ofNat_accMax hm, toNat_ofNat_accMax hn,
      Bool.or_false]

theorem maxval_le_accMax (w : Width) : maxval w ≤ accMax := by cases w <;> decide

/-- The check at the end sees what it would see of the number. -/
theorem accTooLarge_accSet (w : Width) (n : Nat) :
    accTooLarge w (accSet false n) = decide (maxval w < n) := by
  rcases Nat.lt_or_ge accMax n with hn | hn
  · have hmax := maxval_le_accMax w
    rw [accSet_of_gt hn, decide_eq_true (by omega)]
    rfl
  · rw [accSet_of_le hn, accTooLarge, toNat_ofNat_accMax hn, Bool.false_or]

/-! ### Literals and bit indices -/

theorem accDigits_eq {base : Nat} (hbase : 1 ≤ base) (ds : List Nat) :
    accDigits base ds = accSet false (ofDigits base ds) := by
  induction ds using List.reverseRecOn with
  | nil => rfl
  | append_singleton ds d ih =>
    rw [ofDigits_concat, ← accDigit_accSet hbase, ← ih]
    simp [accDigits]

/-- The saturating index is the index, or 17 when that is larger. -/
theorem satIndex_eq (ds : List Nat) : satIndex ds = min 17 (ofDigits 10 ds) := by
  induction ds using List.reverseRecOn with
  | nil => rfl
  | append_singleton ds d ih =>
    have hstep : satIndex (ds ++ [d]) = min 17 (satIndex ds * 10 + d) := by simp [satIndex]
    rw [hstep, ih, ofDigits_concat]
    omega

theorem litSat_eq (gate : Nat) (code : Byte → Option (BitVec 7)) (t : List Byte) :
    litSat gate code t = (lit gate code t).map (accSet false) := by
  rw [litSat, lit, binLit, decLit]
  split
  case isTrue => rw [accDigits_eq (by decide)]; rfl
  split
  case isTrue => rw [accDigits_eq (by decide)]; rfl
  cases hhex : hexLit t with
  | none => simp
  | some v =>
    obtain ⟨h, ds, rfl, -, -, -, rfl⟩ := (hexLit_eq_some_iff t v).mp hhex
    exact congrArg some (accDigits_eq (by decide) _)

/-! ### Terms, sums and lines -/

theorem termSat_eq (gate : Nat) (code : Byte → Option (BitVec 7)) (w : Width) (l : List Byte)
    (ps pe : Nat) :
    termSat gate code w l ps pe = (term gate code w l ps pe).map (accSet false) := by
  rw [termSat, litSat_eq]
  cases hlit : lit gate code (slice l ps pe) with
  | some v =>
    rw [term_of_lit hlit]
    rfl
  | none =>
    cases hbit : bitIndex (slice l ps pe) with
    | none =>
      rw [term_of_none hlit hbit]
      rfl
    | some n =>
      obtain ⟨b, ds, hslice, -, -, -, hn⟩ := (bitIndex_eq_some_iff _ n).mp hbit
      have hsat : satIndex (((slice l ps pe).drop 1).map digitVal) = min 17 n := by
        rw [hslice, satIndex_eq]
        exact congrArg (min 17) hn
      have hbits : bits w ≤ 16 := by cases w <;> decide
      by_cases hout : n = 0 ∨ bits w < n
      · rw [term_of_bitIndex_out hbit hout]
        simp only [Option.map_none, Option.isSome_some, if_true, hsat]
        rw [if_pos (by omega)]
        rfl
      · have hmin : min 17 n = n := by omega
        rw [term_of_bitIndex hbit (by omega) (by omega)]
        simp only [Option.map_none, Option.isSome_some, if_true, hsat, hmin]
        rw [if_neg (by omega)]
        rfl

theorem partValueSat_eq (gate : Nat) (code : Byte → Option (BitVec 7)) (w : Width) (l : List Byte)
    (p : Nat × Nat) :
    partValueSat gate code w l p = (partValue gate code w l p).map (accSet false) := by
  simp only [partValueSat, partValue, termSat_eq]
  split <;> rfl

/-- The saturating sum of saturated values is the saturated sum of the values. -/
theorem sumPartsSat_eq {value : Nat × Nat → Except Raised Nat}
    {valueSat : Nat × Nat → Except Raised Acc}
    (h : ∀ p, valueSat p = (value p).map (accSet false)) (ps : List (Nat × Nat)) :
    ∀ acc : Nat, sumPartsSat valueSat (accSet false acc) ps =
      (sumParts value acc ps).map (accSet false) := by
  induction ps with
  | nil => exact fun _ => rfl
  | cons p ps ih =>
    intro acc
    rw [sumPartsSat, sumParts, h]
    cases value p with
    | error r => rfl
    | ok v =>
      simp only [Except.map, accAdd_accSet]
      exact ih (acc + v)

theorem bodyValueSat_eq (gate : Nat) (code : Byte → Option (BitVec 7)) (w : Width) (l : List Byte)
    (s e : Nat) :
    bodyValueSat gate code w l s e = (bodyValue gate code w l s e).map (accSet false) := by
  rw [bodyValueSat, litSat_eq]
  cases hlit : lit gate code (slice l s e) with
  | some v =>
    rw [bodyValue_of_lit hlit]
    rfl
  | none =>
    rw [bodyValue_of_lit_none hlit]
    exact sumPartsSat_eq (partValueSat_eq gate code w l) _ 0

theorem evalLineSat_eq (gate : Nat) (code : Byte → Option (BitVec 7)) (w : Width) (l : List Byte) :
    evalLineSat gate code w l = evalLine gate code w l := by
  simp only [evalLineSat, evalLine, bodyValueSat_eq]
  split
  case isTrue => rfl
  cases bodyValue gate code w l (trim l 0 (textLength l)).1 (trim l 0 (textLength l)).2 with
  | error r => rfl
  | ok v =>
    simp only [Except.map, accTooLarge_accSet, decide_eq_true_eq]
    split
    case isTrue => rfl
    case isFalse hle =>
      have hfits : v ≤ accMax := (Nat.not_lt.mp hle).trans (maxval_le_accMax w)
      rw [accSet_of_le hfits, toNat_ofNat_accMax hfits]

/-- Settles O35: the saturating evaluator gives every line the value or the error of EVAL's. -/
theorem saturatingEvalGivesTheSameOutcome : Obligations.SaturatingEvalGivesTheSameOutcome := by
  unfold Obligations.SaturatingEvalGivesTheSameOutcome
  intro wsel s
  rw [exec, execEval, execEvalSat]
  refine congrArg (withWidth wsel s) (funext fun w => congrArg (checkRange _ _) ?_)
  cases hr : evalLine s.cfg.gate.toNat (charToCode s) w (line s) <;>
    simp only [evalLineSat_eq, hr]

end Sys2Proof.Machine
end

section
/-! PROOFS of the family 43_control.md: NOP (R200) and CLRERR (R201). -/

namespace Sys2Proof

/-! ### The one word of a decoded command (30_encoding.md R80, R81) -/

/-- The decoder's table gives an opcode's command with the width select it was asked for. -/
theorem opcode_wsel_of_instrOfOpcode {op : Nat} {wsel : WSel} {i : Instr}
    (h : instrOfOpcode op wsel = some i) : (opcode i).toNat = op ∧ i.wsel = wsel := by
  unfold instrOfOpcode at h
  split at h
  case h_11 => contradiction
  all_goals
    obtain rfl := Option.some.inj h
    exact ⟨rfl, rfl⟩

/-- A word that decodes to a command is well-formed and is that command's encoding: its three fields
are, and they are the whole word. -/
theorem eq_encode_of_decode {c : Word} {i : Instr} (h : decode c = .ok i) :
    i.WellFormed ∧ c = encode i := by
  obtain ⟨hrsv, hwsel, hinstr⟩ := (decode_eq_ok_iff c i).mp h
  obtain ⟨hop, hw⟩ := opcode_wsel_of_instrOfOpcode hinstr
  have hwf : i.WellFormed := fun h => hwsel (hw.symm.trans h)
  refine ⟨hwf, ?_⟩
  rw [rsvField_eq_zero_iff] at hrsv
  rw [encode_eq_ofNat, hop, hw, opField_toNat, wselField_toNat]
  apply BitVec.eq_of_toNat_eq
  rw [BitVec.toNat_ofNat]
  omega

/-- The width selects of a command (30_encoding.md R82). -/
theorem wsel_cases {wsel : WSel} (h : wsel ≠ 0b11#2) :
    wsel = 0b00#2 ∨ wsel = 0b01#2 ∨ wsel = 0b10#2 := by
  revert wsel; decide

namespace Machine

/-! ### NOP (43_control.md R200) -/

/-- 0x300, the OP of NOP with the reserved width, and the words with a bit of RSV set are no commands
(30_encoding.md R84). -/
theorem decode_ne_ok_of_reserved {c : Word} (h : c = 0x300#32 ∨ c.toNat / 1024 ≠ 0) (i : Instr) :
    decode c ≠ .ok i := by
  rcases h with rfl | hrsv
  · exact decode_ne_ok_of_wselField rfl i
  · intro hi
    obtain ⟨hzero, -⟩ := (exists_decode_iff c).mp ⟨i, hi⟩
    exact hrsv hzero

/-- Settles O36: a well-formed NOP answers its own state; its words are the encodings of the NOPs of
the three width selects, and the other words of the statement decode to no command. -/
theorem nopWritesNothing : Obligations.NopWritesNothing := by
  unfold Obligations.NopWritesNothing
  refine ⟨fun wsel s h => ⟨?encode, exec_of_isNop (i := .nop wsel) h rfl s⟩,
    fun wsel c hc => ?words, fun c s h => runWord_of_not_ok (decode_ne_ok_of_reserved h) s⟩
  case encode => simp [encode_eq_ofNat, opcode, Instr.wsel]
  case words =>
    obtain ⟨hwf, rfl⟩ := eq_encode_of_decode hc
    rcases wsel_cases (wsel := wsel) hwf with rfl | rfl | rfl
    · exact .inl rfl
    · exact .inr (.inl rfl)
    · exact .inr (.inr rfl)

/-! ### CLRERR (43_control.md R201) -/

/-- A command that takes STICKY from 1 to 0 is CLRERR: an error sets STICKY, and NOP and every
completion leave it. -/
theorem isClrerr_of_exec_clears_sticky {i : Instr} {s t : State} (h : exec i s = .next t)
    (hs : s.status.sticky = 1) (ht : t.status.sticky = 0) : isClrerr i = true := by
  have hne : t.status.sticky ≠ s.status.sticky := by rw [hs, ht]; decide
  rcases exec_status_cases h with ⟨e, hst⟩ | ⟨-, hst⟩ | ⟨hc, -⟩ | ⟨-, -, hst | hst⟩
  · exact absurd (hst ▸ ht) (by simp)
  · exact absurd (by rw [hst]) hne
  · exact hc
  · exact absurd (by rw [hst, completed_sticky]) hne
  · exact absurd (by rw [hst, emptyLine_sticky]) hne

/-- Settles O37: the one outcome of a well-formed CLRERR, the cases of STATUS after any command, and
STICKY in the reset state. -/
theorem clrerrClearsTheErrorState : Obligations.ClrerrClearsTheErrorState := by
  unfold Obligations.ClrerrClearsTheErrorState
  exact ⟨fun wsel s h =>
      ⟨encode_eq_ofNat (.clrerr wsel), exec_of_isClrerr (i := .clrerr wsel) h rfl s⟩,
    fun _ _ _ => isClrerr_of_exec_clears_sticky, rfl⟩

end Machine
end Sys2Proof
end

section
/-! PROOFS of the whole decoder (30_encoding.md R80 to R88): decoding and encoding agree on every
word. -/

namespace Sys2Proof

/-- The fields of a command's word, from the one lemma per command. -/
theorem encode_fields (i : Instr) :
    rsvField (encode i) = 0#22 ∧ wselField (encode i) = i.wsel ∧ opField (encode i) = opcode i := by
  cases i with
  | nop w => exact Laws.EncodeFields.nop w
  | rev w => exact Laws.EncodeFields.rev w
  | enc w => exact Laws.EncodeFields.enc w
  | dec w => exact Laws.EncodeFields.dec w
  | xenc w => exact Laws.EncodeFields.xenc w
  | xdec w => exact Laws.EncodeFields.xdec w
  | pack w => exact Laws.EncodeFields.pack w
  | unpack w => exact Laws.EncodeFields.unpack w
  | eval w => exact Laws.EncodeFields.eval w
  | clrerr w => exact Laws.EncodeFields.clrerr w

/-- The decoder's table inverts the opcodes (R81). -/
theorem instrOfOpcode_opcode (i : Instr) :
    instrOfOpcode (opcode i).toNat i.wsel = some i := by
  cases i <;> rfl

/-- A well-formed command's word decodes to it. -/
theorem decode_encode {i : Instr} (h : i.WellFormed) : decode (encode i) = .ok i := by
  obtain ⟨hrsv, hwsel, hop⟩ := encode_fields i
  rw [decode_eq_ok_iff, hwsel, hop]
  exact ⟨hrsv, h, instrOfOpcode_opcode i⟩

/-- Settles O5: a decoded word is the encoding of its command by its three fields, and the fields of
an encoding decode to the command. -/
theorem decodeAgreesWithEncode : Obligations.DecodeAgreesWithEncode := by
  unfold Obligations.DecodeAgreesWithEncode
  intro c i
  constructor
  · intro h
    obtain ⟨hwf, hc⟩ := eq_encode_of_decode h
    exact ⟨hwf, hc.symm⟩
  · rintro ⟨hwf, rfl⟩
    exact decode_encode hwf

/-- Settles O6: six of the words are encodings of well-formed commands; the other three fail at one
check of the decoder each. -/
theorem specWordsDecodeToTheirCommands : Obligations.SpecWordsDecodeToTheirCommands := by
  unfold Obligations.SpecWordsDecodeToTheirCommands
  exact ⟨decode_encode (i := .rev 0b10#2) (by decide), decode_encode (i := .enc 0b01#2) (by decide),
    decode_encode (i := .xenc 0b10#2) (by decide), decode_encode (i := .pack 0b00#2) (by decide),
    decode_encode (i := .eval 0b00#2) (by decide), decode_encode (i := .clrerr 0b01#2) (by decide),
    rfl, rfl, rfl⟩

end Sys2Proof
end

section
/-! PROOFS of the step (10_state.md R20, 20_memory.md R51 to R56, 70_reset_and_hazards.md R240 to
R242): everything one step can do, and what follows for the whole machine. -/

namespace Sys2Proof.Machine

/-! ### The register map (20_memory.md R51) -/

/-- The offset of a target, the inverse of the register map. -/
def Target.offset : Target → Nat
  | .cfg => 0x000
  | .status => 0x004
  | .cmd => 0x008
  | .opa => 0x00C
  | .opb => 0x010
  | .res => 0x014
  | .sym => 0x018
  | .llen => 0x01C
  | .errpos => 0x020
  | .lbufWord k => 0x100 + 4 * k
  | .chartabEntry c => 0x400 + 4 * c

/-- The targets inside the two windows (R57, R59); every register is one. -/
def Target.inRange : Target → Prop
  | .lbufWord k => k < 64
  | .chartabEntry c => c < 256
  | _ => True

theorem Target.offset_mod_four (tgt : Target) : tgt.offset % 4 = 0 := by
  cases tgt <;> simp only [Target.offset] <;> omega

/-- The map has every target in range at its offset. -/
theorem targetAt_offset {tgt : Target} (h : tgt.inRange) : targetAt tgt.offset = some tgt := by
  cases tgt with
  | lbufWord k =>
    have hk : k < 64 := h
    have hword : (0x100 + 4 * k - 0x100) / 4 = k := by omega
    rw [Target.offset, targetAt_of_window (by omega), if_pos (by omega), hword]
  | chartabEntry c =>
    have hentry : (0x400 + 4 * c - 0x400) / 4 = c := by omega
    rw [Target.offset, targetAt_of_window (by omega), if_neg (by omega), if_pos (by omega), hentry]
  | _ => rfl

/-- What the map has at an aligned offset of the bus space is in range and has that offset. -/
theorem inRange_offset_of_targetAt {off : Nat} {tgt : Target} (halign : off % 4 = 0)
    (hlt : off < 2048) (h : targetAt off = some tgt) : tgt.inRange ∧ tgt.offset = off := by
  unfold targetAt at h
  split at h
  case h_10 =>
    split at h
    case isTrue hwin =>
      obtain rfl := Option.some.inj h
      simp only [Target.inRange, Target.offset]
      omega
    case isFalse =>
      obtain ⟨hwin, htgt⟩ := Option.ite_none_right_eq_some.mp h
      obtain rfl := Option.some.inj htgt
      simp only [Target.inRange, Target.offset]
      omega
  all_goals
    obtain rfl := Option.some.inj h
    exact ⟨trivial, rfl⟩

/-- The target of an access is the one at its offset, for 32-bit accesses (R52). -/
theorem busTarget_eq_some_iff (size : AccessSize) (off : Offset) (tgt : Target) :
    busTarget size off = some tgt ↔
      size = .word ∧ tgt.inRange ∧ tgt.offset = off.toNat := by
  rw [busTarget, Option.ite_none_right_eq_some]
  constructor
  · rintro ⟨⟨hsize, halign⟩, h⟩
    exact ⟨hsize, inRange_offset_of_targetAt halign off.isLt h⟩
  · rintro ⟨hsize, hrange, hoff⟩
    rw [← hoff]
    exact ⟨⟨hsize, tgt.offset_mod_four⟩, targetAt_offset hrange⟩

/-- The offsets the map has are those of R51. -/
theorem isMapped_iff {off : Nat} (hlt : off < 2048) :
    isMapped off ↔ ∃ tgt : Target, tgt.inRange ∧ tgt.offset = off := by
  constructor
  · rintro ⟨halign, hreg | hlbuf | hchartab⟩
    · obtain ⟨k, rfl⟩ : ∃ k, off = 4 * k := ⟨off / 4, by omega⟩
      have hk : k < 9 := by omega
      interval_cases k
      · exact ⟨.cfg, trivial, rfl⟩
      · exact ⟨.status, trivial, rfl⟩
      · exact ⟨.cmd, trivial, rfl⟩
      · exact ⟨.opa, trivial, rfl⟩
      · exact ⟨.opb, trivial, rfl⟩
      · exact ⟨.res, trivial, rfl⟩
      · exact ⟨.sym, trivial, rfl⟩
      · exact ⟨.llen, trivial, rfl⟩
      · exact ⟨.errpos, trivial, rfl⟩
    · refine ⟨.lbufWord ((off - 0x100) / 4), ?_⟩
      simp only [Target.inRange, Target.offset]
      omega
    · refine ⟨.chartabEntry ((off - 0x400) / 4), ?_⟩
      simp only [Target.inRange, Target.offset]
      omega
  · rintro ⟨tgt, hrange, rfl⟩
    refine ⟨tgt.offset_mod_four, ?_⟩
    cases tgt <;> simp only [Target.inRange, Target.offset] at * <;> omega

/-- An access has no target exactly when it is narrow, misaligned or unmapped (R52). -/
theorem busTarget_eq_none_iff (size : AccessSize) (off : Offset) :
    busTarget size off = none ↔ size ≠ .word ∨ ¬ isMapped off.toNat := by
  rw [Option.eq_none_iff_forall_ne_some, isMapped_iff off.isLt]
  simp only [ne_eq, busTarget_eq_some_iff]
  by_cases hsize : size = .word <;> simp [hsize]

/-- CMD is the word at 0x008 and nothing else (R51). -/
theorem busTarget_eq_cmd {size : AccessSize} {off : Offset} (h : busTarget size off = some .cmd) :
    size = .word ∧ off = 0x008 := by
  obtain ⟨hsize, -, hoff⟩ := (busTarget_eq_some_iff size off .cmd).mp h
  exact ⟨hsize, BitVec.eq_of_toNat_eq hoff.symm⟩

/-! ### Everything a step can do -/

/-- The form of a state that the lemmas on a step speak of. -/
theorem eq_withPending {s : State} {l : List HostEvent} (h : s.pending = l) :
    s = { s with pending := l } := h ▸ rfl

/-- The cases of a step that goes on: nothing pending, a reset, a read, a write of anything but CMD,
or a write of CMD, which runs its word. -/
theorem step_cases {s t : State} (h : step s = .next t) :
    (s.pending = [] ∧ t = s) ∨
    (∃ lost rest, s.pending = .reset lost :: rest ∧ t = { State.reset with pending := rest }) ∨
    (∃ off tgt rest, s.pending = rd off :: rest ∧ busTarget .word off = some tgt ∧
      t = { s with pending := rest, response := .data (readTarget s tgt) }) ∨
    (∃ off v tgt rest, s.pending = wr off v :: rest ∧ busTarget .word off = some tgt ∧ tgt ≠ .cmd ∧
      t = { writeTarget { s with pending := rest } v tgt with response := .accepted }) ∨
    (∃ c rest u, s.pending = cmdWrite c :: rest ∧ runWord c { s with pending := rest } = .next u ∧
      t = { u with response := .accepted }) := by
  match hp : s.pending with
  | [] =>
    obtain rfl := Host.Outcome.next.inj ((step_idle hp).symm.trans h)
    exact .inl ⟨rfl, rfl⟩
  | .reset lost :: rest =>
    rw [step_event hp, hostEvent] at h
    obtain rfl := Host.Outcome.next.inj h
    exact .inr (.inl ⟨lost, rest, rfl, rfl⟩)
  | .access (.read size off) :: rest =>
    cases htgt : busTarget size off with
    | none =>
      rw [eq_withPending hp, step_read_of_no_target htgt] at h
      contradiction
    | some tgt =>
      obtain ⟨rfl, -⟩ := (busTarget_eq_some_iff size off tgt).mp htgt
      rw [eq_withPending hp, step_read_of_target htgt] at h
      obtain rfl := Host.Outcome.next.inj h
      exact .inr (.inr (.inl ⟨off, tgt, rest, rfl, htgt, rfl⟩))
  | .access (.write size off v) :: rest =>
    cases htgt : busTarget size off with
    | none =>
      rw [eq_withPending hp, step_write_of_no_target htgt] at h
      contradiction
    | some tgt =>
      obtain ⟨rfl, -⟩ := (busTarget_eq_some_iff size off tgt).mp htgt
      by_cases hcmd : tgt = .cmd
      · subst hcmd
        obtain ⟨-, rfl⟩ := busTarget_eq_cmd htgt
        obtain ⟨u, hu⟩ := runWord_next v { s with pending := rest }
        rw [eq_withPending hp] at h
        have hstep := (step_cmdWrite s v rest).symm.trans h
        rw [hu, respond_next] at hstep
        obtain rfl := Host.Outcome.next.inj hstep
        exact .inr (.inr (.inr (.inr ⟨v, rest, u, rfl, hu, rfl⟩)))
      · rw [eq_withPending hp, step_write_of_target htgt hcmd] at h
        obtain rfl := Host.Outcome.next.inj h
        exact .inr (.inr (.inr (.inl ⟨off, v, tgt, rest, rfl, htgt, hcmd, rfl⟩)))

/-! ### Resets, idle steps and commands (10_state.md R20, R38; 20_memory.md R55) -/

/-- A step that takes a reset leaves the reset state, whatever accesses were lost. -/
theorem step_reset (s : State) (lost : List Access) (rest : List HostEvent) :
    step { s with pending := .reset lost :: rest } =
      .next { State.reset with pending := rest } := by
  rw [step_event rfl, hostEvent]

/-- Settles O1: the step leaves the reset state, whose memory lists no address. -/
theorem resetLeavesTheResetValues : Obligations.ResetLeavesTheResetValues := by
  unfold Obligations.ResetLeavesTheResetValues
  intro s lost rest
  have hentry : entryValid 0x00 = false ∧ entryCode 0x00 = 0 := by decide
  exact ⟨_, step_reset s lost rest, rfl, rfl, rfl, rfl, rfl, rfl, rfl, rfl,
    fun i _ => reset_mem_read (lbufAddr i), fun _ => hentry, rfl⟩

/-- Settles O2: the machine takes no action. -/
theorem idleStepChangesNothing : Obligations.IdleStepChangesNothing := by
  unfold Obligations.IdleStepChangesNothing
  exact fun _ => step_idle

/-- A word that decodes to a command runs it. -/
theorem runWord_of_ok {c : Word} {i : Instr} (h : decode c = .ok i) (s : State) :
    runWord c s = exec i s := by
  simp only [runWord, h]

/-- Settles O3: a step at a write of CMD runs its word, which is the decoded command's meaning. -/
theorem stepRunsTheDecodedCommand : Obligations.StepRunsTheDecodedCommand := by
  unfold Obligations.StepRunsTheDecodedCommand
  intro s t c i rest hp hdec _ hexec
  rw [eq_withPending hp, step_cmdWrite, runWord_of_ok hdec, hexec, respond_next]

/-! ### What the steps without a command keep (20_memory.md R54) -/

@[simp] theorem writeTarget_status (s : State) (v : Word) (tgt : Target) :
    (writeTarget s v tgt).status = s.status := by cases tgt <;> rfl

@[simp] theorem writeTarget_errpos (s : State) (v : Word) (tgt : Target) :
    (writeTarget s v tgt).errpos = s.errpos := by cases tgt <;> rfl

@[simp] theorem writeTarget_res (s : State) (v : Word) (tgt : Target) :
    (writeTarget s v tgt).res = s.res := by cases tgt <;> rfl

@[simp] theorem writeTarget_pending (s : State) (v : Word) (tgt : Target) :
    (writeTarget s v tgt).pending = s.pending := by cases tgt <;> rfl

/-- Settles O43: a read and a write of anything but CMD keep STATUS, ERRPOS and RES, and the other
cases of a step do not begin with such an access. -/
theorem onlyCmdWritesRunCommands : Obligations.OnlyCmdWritesRunCommands := by
  unfold Obligations.OnlyCmdWritesRunCommands
  intro s t a rest hp hcmd h
  rcases step_cases h with ⟨hp', -⟩ | ⟨lost, rest', hp', -⟩ | ⟨off, tgt, rest', hp', -, rfl⟩ |
    ⟨off, v, tgt, rest', hp', -, -, rfl⟩ | ⟨c, rest', u, hp', -, -⟩ <;> rw [hp] at hp'
  · contradiction
  · simp at hp'
  · obtain ⟨-, rfl⟩ := List.cons.inj hp'
    exact ⟨rfl, rfl, rfl, rfl⟩
  · obtain ⟨-, rfl⟩ := List.cons.inj hp'
    simp
  · obtain ⟨ha, -⟩ := List.cons.inj hp'
    exact absurd (HostEvent.access.inj ha) (hcmd c)

/-- Settles O42: a read, a write of anything but CMD and an illegal word leave no STICKY cleared, so
the step takes a reset or runs a command, and the one command that clears it is CLRERR, whose words
are its encodings. -/
theorem stickyIsClearedOnlyByClrerrOrReset : Obligations.StickyIsClearedOnlyByClrerrOrReset := by
  unfold Obligations.StickyIsClearedOnlyByClrerrOrReset
  intro s t h hset hclear
  have hne : t.status.sticky ≠ s.status.sticky := by rw [hset, hclear]; decide
  rcases step_cases h with ⟨-, rfl⟩ | ⟨lost, rest, hp, -⟩ | ⟨off, tgt, rest, -, -, rfl⟩ |
    ⟨off, v, tgt, rest, -, -, -, rfl⟩ | ⟨c, rest, u, hp, hu, rfl⟩
  · exact absurd rfl hne
  · exact ⟨rest, .inl ⟨lost, hp⟩⟩
  · exact absurd rfl hne
  · exact absurd (by simp) hne
  · rcases runWord_cases c { s with pending := rest } with ⟨i, hi, hrun⟩ | ⟨-, -, hrun⟩ <;>
      rw [hrun] at hu
    · have hclrerr := isClrerr_of_exec_clears_sticky hu hset hclear
      obtain ⟨hwf, rfl⟩ := eq_encode_of_decode hi
      cases i with
      | clrerr wsel => exact ⟨rest, .inr ⟨wsel, hwf, hp⟩⟩
      | _ => contradiction
    · obtain rfl := Host.Outcome.next.inj hu
      exact absurd hclear (by simp)

/-! ### Bus errors (20_memory.md R56) -/

/-- A step never stops with a fault: there is none (60_exceptions.md R210). -/
theorem step_next_or_refused (s : State) :
    (∃ t, step s = .next t) ∨ ∃ r, step s = .refused r := by
  match h : step s with
  | .next t => exact .inl ⟨t, rfl⟩
  | .refused r => exact .inr ⟨r, rfl⟩
  | .fault f => nomatch f

/-- An access that has a target is answered. -/
theorem busAccess_next {a : Access} (h : a.accepted = true) (s : State) :
    ∃ t, busAccess s a = .next t := by
  cases a with
  | read size off =>
    obtain ⟨tgt, htgt⟩ := Option.isSome_iff_exists.mp h
    exact ⟨_, by simp only [busAccess, htgt]; rfl⟩
  | write size off v =>
    obtain ⟨tgt, htgt⟩ := Option.isSome_iff_exists.mp h
    by_cases hcmd : tgt = .cmd
    · obtain ⟨u, hu⟩ := runWord_next v s
      subst hcmd
      exact ⟨_, by simp only [busAccess, htgt, hu, respond_next]; rfl⟩
    · exact ⟨_, busAccess_write_of_target htgt hcmd s v⟩

/-- The accesses that get a bus error: narrow, misaligned or at an unmapped offset (R52). -/
def Access.isBusError : Access → Prop
  | .read size off => size ≠ .word ∨ ¬ isMapped off.toNat
  | .write size off _ => size ≠ .word ∨ ¬ isMapped off.toNat

theorem Access.isBusError_of_not_accepted {a : Access} (h : ¬ a.accepted = true) :
    a.isBusError := by
  cases a with
  | read size off =>
    exact (busTarget_eq_none_iff size off).mp (Option.not_isSome_iff_eq_none.mp h)
  | write size off v =>
    exact (busTarget_eq_none_iff size off).mp (Option.not_isSome_iff_eq_none.mp h)

theorem step_of_isBusError {s : State} {a : Access} {rest : List HostEvent}
    (hp : s.pending = .access a :: rest) (h : a.isBusError) : step s = .refused (.busError a) := by
  rw [eq_withPending hp]
  cases a with
  | read size off => exact step_read_of_no_target ((busTarget_eq_none_iff size off).mpr h) s rest
  | write size off v =>
    exact step_write_of_no_target ((busTarget_eq_none_iff size off).mpr h) s v rest

/-- Idle steps, resets and accesses with a target go on, so only a bus error refuses a step. -/
theorem step_eq_refused_iff (s : State) (r : Refusal) :
    step s = .refused r ↔
      ∃ a rest, s.pending = .access a :: rest ∧ r = .busError a ∧ a.isBusError := by
  constructor
  · intro h
    match hp : s.pending with
    | [] =>
      rw [step_idle hp] at h
      contradiction
    | .reset lost :: rest =>
      rw [step_event hp, hostEvent] at h
      contradiction
    | .access a :: rest =>
      by_cases hacc : a.accepted = true
      · obtain ⟨t, ht⟩ := busAccess_next hacc { s with pending := rest }
        rw [step_event hp, hostEvent, ht] at h
        contradiction
      · have hbus := Access.isBusError_of_not_accepted hacc
        rw [step_of_isBusError hp hbus] at h
        exact ⟨a, rest, rfl, (Host.Outcome.refused.inj h).symm, hbus⟩
  · rintro ⟨a, rest, hp, rfl, hbus⟩
    exact step_of_isBusError hp hbus

/-- Settles O44: `Access.isBusError` is the condition of the statement, and a step that is not
refused has no fault to stop with. -/
theorem onlyBusErrorsRefuseAStep : Obligations.OnlyBusErrorsRefuseAStep := by
  unfold Obligations.OnlyBusErrorsRefuseAStep
  refine fun s => ⟨step_eq_refused_iff s, fun hnot => ?_⟩
  rcases step_next_or_refused s with h | ⟨r, h⟩
  · exact h
  · exact absurd h (hnot r)

end Sys2Proof.Machine
end

section
/-! PROOFS of the invariant (10_state.md section 3, 60_exceptions.md R211 to R214): the span of
every error fits its code, every value written to RES fits in 25 bits, and a bus write keeps memory
in its canonical form. -/

namespace Sys2Proof.Machine

/-! ### The outcomes of a command keep the invariant -/

/-- The span of an error fits its code. -/
def Raised.fits (r : Raised) : Prop := spanLegal (Status.failed r.err) (ErrPos.ofSpan r.pos r.len)

theorem statusLegal_of_err_zero {st : Status} (h : st.err = 0) : statusLegal st :=
  ⟨by rw [h]; decide, fun hne => absurd h hne⟩

theorem statusLegal_failed (e : Err) : statusLegal (Status.failed e) :=
  ⟨code_le e, fun _ => ⟨rfl, rfl⟩⟩

/-- ERRPOS = 0 fits every code but InvalidSymbol's. -/
theorem spanLegal_zero {st : Status} (h : st.err ≠ 5) : spanLegal st ErrPos.zero :=
  ⟨fun _ => rfl, fun h5 => absurd h5 h, fun _ => Nat.zero_le _⟩

section
variable {s : State} (h : Inv s)
include h

theorem inv_of_err_zero {t : State} (hmem : t.mem = s.mem) (herr : t.status.err = 0)
    (hpos : t.errpos = ErrPos.zero) (hres : t.res.toNat < 2 ^ 25) : Inv t := by
  obtain ⟨hwf, -⟩ := h
  have hspan : spanLegal t.status ErrPos.zero := spanLegal_zero (by rw [herr]; decide)
  exact ⟨hmem ▸ hwf, statusLegal_of_err_zero herr, hpos ▸ hspan, hres⟩

theorem inv_completeRes {v : Word} (hv : v.toNat < 2 ^ 25) : Inv (completeRes v s) :=
  inv_of_err_zero h rfl rfl rfl hv

theorem inv_completeSym (y : BitVec 24) : Inv (completeSym y s) :=
  have ⟨_, _, _, hres⟩ := h
  inv_of_err_zero h rfl rfl rfl hres

theorem inv_completeEmpty : Inv (completeEmpty s) :=
  have ⟨_, _, _, hres⟩ := h
  inv_of_err_zero h rfl rfl rfl hres

theorem inv_raise {r : Raised} (hr : r.fits) : Inv (raise r s) := by
  obtain ⟨hwf, -, -, hres⟩ := h
  exact ⟨hwf, statusLegal_failed r.err, hr, hres⟩

end

/-! ### Spans that fit (60_exceptions.md R211) -/

/-- An error without a span fits, unless it is an InvalidSymbol. -/
theorem fits_of_no_span {e : Err} (h : e ≠ .invalidSymbol) : Raised.fits { err := e } :=
  spanLegal_zero <| by
    cases e with
    | invalidSymbol => contradiction
    | _ => decide

/-- The errors of EVAL within a line of `n` bytes. -/
def Raised.within (n : Nat) (r : Raised) : Prop :=
  (r.err = .unparsableToken ∨ r.err = .bitIndexOutOfRange ∨ r.err = .valueTooLarge) ∧
    r.pos + r.len ≤ n

theorem Raised.within_mono {m n : Nat} {r : Raised} (h : r.within m) (hmn : m ≤ n) : r.within n :=
  ⟨h.1, h.2.trans hmn⟩

theorem fits_of_within {r : Raised} {n : Nat} (h : r.within n) (hn : n ≤ Config.lineMax) :
    r.fits := by
  obtain ⟨herr, hspan⟩ := h
  have hmax : Config.lineMax = 256 := rfl
  have hsum : (ErrPos.ofSpan r.pos r.len).pos.toNat + (ErrPos.ofSpan r.pos r.len).len.toNat ≤
      Config.lineMax := by
    simp only [ErrPos.ofSpan, BitVec.toNat_ofNat]
    omega
  rcases herr with herr | herr | herr <;> simp [Raised.fits, spanLegal, herr, Err.code, hsum]

/-- An InvalidSymbol at a symbol of SYM. -/
theorem fits_invalidSymbol {j : Nat} (hj : j < 3) :
    Raised.fits { err := .invalidSymbol, pos := j, len := 1 } := by
  unfold Raised.fits
  interval_cases j <;> decide

/-! ### The errors and values of EVAL (42_evaluator.md R170 to R173) -/

theorem textLength_le (l : List Byte) : textLength l ≤ l.length := by
  induction l with
  | nil => exact le_refl 0
  | cons b l ih =>
    by_cases hs : slashesAt (b :: l) 0
    · rw [textLength_of_slashesAt_zero hs]
      exact Nat.zero_le _
    · rw [textLength_cons hs, List.length_cons]
      omega

/-- A trimmed span lies inside the span. -/
theorem trim_bounds {l : List Byte} {a z : Nat} (haz : a ≤ z) (hz : z ≤ l.length) :
    a ≤ (trim l a z).1 ∧ (trim l a z).1 ≤ (trim l a z).2 ∧ (trim l a z).2 ≤ z := by
  obtain ⟨-, hspan⟩ := trimRemovesWhitespaceAtBothEnds
  obtain ⟨ha, hse, hz, -⟩ := hspan l a z haz hz
  exact ⟨ha, hse, hz⟩

/-- The raw parts of a text lie inside it. -/
theorem mem_rawParts {t : List Byte} : ∀ {start at' : Nat}, start ≤ at' →
    ∀ p ∈ rawParts start at' t, p.1 ≤ p.2 ∧ p.2 ≤ at' + t.length := by
  induction t with
  | nil =>
    intro start at' hle p hp
    obtain rfl := List.mem_singleton.mp hp
    exact ⟨hle, le_refl at'⟩
  | cons b t ih =>
    intro start at' hle p hp
    have hlen : at' + (b :: t).length = at' + 1 + t.length := by
      rw [List.length_cons]
      omega
    rw [rawParts] at hp
    split at hp
    · rcases List.mem_cons.mp hp with rfl | hp
      · exact ⟨hle, Nat.le_add_right _ _⟩
      · exact hlen ▸ ih (le_refl _) p hp
    · exact hlen ▸ ih (Nat.le_succ_of_le hle) p hp

/-- A sum ends with the error of one of its parts. -/
theorem exists_of_sumParts_error {value : Nat × Nat → Except Raised Nat} {r : Raised}
    {ps : List (Nat × Nat)} : ∀ {acc : Nat}, sumParts value acc ps = .error r →
      ∃ p ∈ ps, value p = .error r := by
  induction ps with
  | nil => exact fun h => nomatch h
  | cons p ps ih =>
    intro acc h
    cases hv : value p with
    | ok v =>
      simp only [sumParts, hv] at h
      obtain ⟨q, hq, hr⟩ := ih h
      exact ⟨q, .tail _ hq, hr⟩
    | error r' =>
      rw [sumParts_of_error hv] at h
      obtain rfl := Except.error.inj h
      exact ⟨p, .head _, hv⟩

section
variable {gate : Nat} {code : Byte → Option (BitVec 7)} {w : Width} {l : List Byte} {a z : Nat}
  {r : Raised}

theorem within_of_term_error (haz : a ≤ z) (h : term gate code w l a z = .error r) :
    r.within z := by
  have hspan : a + (z - a) ≤ z := by omega
  unfold term at h
  split at h
  · contradiction
  split at h
  · split at h
    · obtain rfl := Except.error.inj h
      exact ⟨.inr (.inl rfl), hspan⟩
    · contradiction
  · obtain rfl := Except.error.inj h
    exact ⟨.inl rfl, hspan⟩

theorem within_of_partValue_error (haz : a ≤ z) (hz : z ≤ l.length)
    (h : partValue gate code w l (a, z) = .error r) : r.within z := by
  obtain ⟨-, hse, hez⟩ := trim_bounds haz hz
  simp only [partValue] at h
  split at h
  · obtain rfl := Except.error.inj h
    exact ⟨.inl rfl, haz⟩
  · exact Raised.within_mono (within_of_term_error hse h) hez

theorem within_of_bodyValue_error (haz : a ≤ z) (hz : z ≤ l.length)
    (h : bodyValue gate code w l a z = .error r) : r.within z := by
  cases hlit : lit gate code (slice l a z) with
  | some v =>
    rw [bodyValue_of_lit hlit] at h
    contradiction
  | none =>
    rw [bodyValue_of_lit_none hlit] at h
    obtain ⟨⟨i, j⟩, hp, hr⟩ := exists_of_sumParts_error h
    obtain ⟨hij, hj⟩ := mem_rawParts (le_refl a) _ hp
    have hjz : j ≤ z := by
      rw [slice_length hz, Nat.add_sub_cancel' haz] at hj
      exact hj
    exact Raised.within_mono (within_of_partValue_error hij (hjz.trans hz) hr) hjz

/-- An EVAL that ends with an error names a span of the line. -/
theorem within_of_evalLine_error (h : evalLine gate code w l = .error r) : r.within l.length := by
  obtain ⟨-, hse, hez⟩ := trim_bounds (Nat.zero_le _) (textLength_le l)
  have hel := hez.trans (textLength_le l)
  unfold evalLine at h
  dsimp only at h
  split at h
  · contradiction
  split at h
  · split at h
    · obtain rfl := Except.error.inj h
      exact ⟨.inr (.inr rfl), by dsimp only; omega⟩
    · contradiction
  · next hbody =>
    obtain rfl := Except.error.inj h
    exact Raised.within_mono (within_of_bodyValue_error hse hel hbody) hel

/-- An EVAL that completes with a value has checked it against the width. -/
theorem le_maxval_of_evalLine {v : Nat} (h : evalLine gate code w l = .ok (some v)) :
    v ≤ maxval w := by
  unfold evalLine at h
  dsimp only at h
  split at h
  · exact nomatch Except.ok.inj h
  split at h
  · split at h
    · contradiction
    · next hle =>
      obtain rfl := Option.some.inj (Except.ok.inj h)
      exact Nat.not_lt.mp hle
  · contradiction

end

/-! ### The values written to RES (10_state.md R29) -/

theorem maxval_le (w : Width) : maxval w ≤ 65535 := by cases w <;> decide

/-- A number below 2^25 as the word in RES. -/
theorem toNat_ofNat_lt_two_pow_25 {v : Nat} (h : v < 2 ^ 25) :
    (BitVec.ofNat 32 v).toNat < 2 ^ 25 := by
  rw [BitVec.toNat_ofNat]
  omega

theorem toNat_ofNat_lt_of_le_maxval {w : Width} {v : Nat} (h : v ≤ maxval w) :
    (BitVec.ofNat 32 v).toNat < 2 ^ 25 := by
  have hmax := maxval_le w
  exact toNat_ofNat_lt_two_pow_25 (by omega)

theorem lt_of_indexOf {b : Byte} {d : Nat} (h : indexOf b = some d) : d < 71 := by
  obtain ⟨hd, -⟩ := List.idxOf?_eq_some_iff.mp h
  exact hd

/-- The number of a string of symbols, with the value `acc` so far, is below the next power. -/
theorem decFrom_lt {l : List Byte} : ∀ {i acc v : Nat}, decFrom i acc l = .ok v →
    v < (acc + 1) * 71 ^ l.length := by
  induction l with
  | nil =>
    intro i acc v h
    obtain rfl := Except.ok.inj h
    simp
  | cons b l ih =>
    intro i acc v h
    cases hb : indexOf b with
    | none =>
      rw [decFrom_cons_of_none hb] at h
      contradiction
    | some d =>
      rw [decFrom_cons_of_some hb] at h
      have hd := lt_of_indexOf hb
      calc v < (acc * 71 + d + 1) * 71 ^ l.length := ih h
        _ ≤ ((acc + 1) * 71) * 71 ^ l.length := Nat.mul_le_mul_right _ (by omega)
        _ = (acc + 1) * 71 ^ (b :: l).length := by rw [List.length_cons, pow_succ']; ring

@[simp] theorem symString_length (w : Width) (y : BitVec 24) :
    (symString w y).length = symCount w := by simp [symString]

theorem decSymbols_symString_lt {w : Width} {y : BitVec 24} {v : Nat}
    (h : decSymbols (symString w y) = .ok v) : v < 2 ^ 25 :=
  calc v < (0 + 1) * 71 ^ (symString w y).length := decFrom_lt h
    _ ≤ 71 ^ 3 := by
      rw [zero_add, one_mul, symString_length]
      exact Nat.pow_le_pow_right (by decide) (symCount_le_three w)
    _ < 2 ^ 25 := by decide

/-- A string of SYM that does not decode names a symbol of SYM. -/
theorem fits_of_decSymbols_error {w : Width} {y : BitVec 24} {r : Raised}
    (h : decSymbols (symString w y) = .error r) : r.fits := by
  rcases decFrom_cases (symString w y) 0 0 with ⟨v, hv⟩ | ⟨j, hj, hr⟩
  · exact nomatch hv.symm.trans h
  · obtain rfl := Except.error.inj (hr.symm.trans h)
    rw [symString_length] at hj
    rw [Nat.zero_add]
    exact fits_invalidSymbol (hj.trans_le (symCount_le_three w))

theorem packWord_cases (w : Width) (cfg : Cfg) (col : BitVec 6) (k : BitVec 7) :
    packWord w cfg col k = .error { err := .valueTooLarge } ∨
      ∃ v, packWord w cfg col k = .ok v ∧ v < 2 ^ 16 := by
  cases w with
  | w16 => exact .inr ⟨_, rfl, (composeWord16 cfg.profile col k).isLt⟩
  | w8 =>
    rw [packWord]
    split
    · exact .inl rfl
    · exact .inr ⟨_, rfl, (composeWord8 col k).isLt.trans (by decide)⟩

/-- UNPACK's word is the widest, with the miss flag in bit 24 (41_word.md R150). -/
theorem unpackWord_lt (w : Width) (s : State) : (unpackWord w s).toNat < 2 ^ 25 := by
  simp only [unpackWord, toNat_append_eq_add, BitVec.toNat_ofNat]
  omega

/-! ### Every command keeps the invariant -/

/-- The outcome of a command's body keeps the invariant. -/
def keepsInv : Except Raised State → Prop
  | .ok t => Inv t
  | .error r => r.fits

theorem fits_operandRange : operandRange.fits := fits_of_no_span (by decide)

theorem keepsInv_checkRange {v max : Nat} {rest : Except Raised State}
    (h : v ≤ max → keepsInv rest) : keepsInv (checkRange v max rest) := by
  rcases checkRange_cases v max rest with ⟨-, hr⟩ | ⟨hle, hr⟩ <;> rw [hr]
  · exact fits_operandRange
  · exact h hle

theorem inv_illegal {s : State} (h : Inv s) : Inv (illegal s) :=
  inv_raise h (fits_of_no_span (by decide))

theorem inv_of_withWidth {s t : State} (hs : Inv s) (wsel : WSel)
    {body : Width → Except Raised State} (hbody : ∀ w, keepsInv (body w))
    (h : withWidth wsel s body = .next t) : Inv t := by
  rw [withWidth_next] at h
  obtain rfl := Host.Outcome.next.inj h
  split
  · exact inv_illegal hs
  · match hb : body (effWidth wsel s.cfg), hbody (effWidth wsel s.cfg) with
    | .ok t, ht => exact ht
    | .error r, hr => exact inv_raise hs hr

theorem inv_of_withoutWidth {s u t : State} (hs : Inv s) (hu : Inv u) (wsel : WSel)
    (h : withoutWidth wsel s u = .next t) : Inv t := by
  rw [withoutWidth_next] at h
  obtain rfl := Host.Outcome.next.inj h
  split
  · exact inv_illegal hs
  · exact hu

theorem inv_completeEval {s : State} (hs : Inv s) {gate : Nat} {code : Byte → Option (BitVec 7)}
    {w : Width} {l : List Byte} {r : Option Nat} (h : evalLine gate code w l = .ok r) :
    Inv (completeEval s r) := by
  cases r with
  | none => exact inv_completeEmpty hs
  | some v => exact inv_completeRes hs (toNat_ofNat_lt_of_le_maxval (le_maxval_of_evalLine h))

theorem exec_inv {i : Instr} {s t : State} (hs : Inv s) (h : exec i s = .next t) : Inv t := by
  have hrev : ∀ w x, keepsInv (.ok (completeRes (BitVec.ofNat 32 (reverseW w x)) s)) := fun w x =>
    inv_completeRes hs (toNat_ofNat_lt_of_le_maxval (reverseW_le_maxval w x))
  have hsym : ∀ y, keepsInv (.ok (completeSym y s)) := inv_completeSym hs
  cases i with
  | nop w => exact inv_of_withoutWidth hs hs w h
  | clrerr w =>
    have ⟨_, _, _, hres⟩ := hs
    rw [exec, execClrerr] at h
    refine inv_of_withoutWidth hs ?_ w h
    exact inv_of_err_zero hs rfl rfl rfl hres
  | rev w =>
    rw [exec, execRev] at h
    exact inv_of_withWidth hs w (fun w => keepsInv_checkRange fun _ => hrev w _) h
  | enc w =>
    rw [exec, execEnc] at h
    exact inv_of_withWidth hs w (fun w => keepsInv_checkRange fun _ => hsym _) h
  | xenc w =>
    rw [exec, execXenc] at h
    exact inv_of_withWidth hs w (fun w => keepsInv_checkRange fun _ => hsym _) h
  | unpack w =>
    have hword : ∀ w, keepsInv (.ok (completeRes (unpackWord w s) s)) := fun w =>
      inv_completeRes hs (unpackWord_lt w s)
    rw [exec, execUnpack] at h
    exact inv_of_withWidth hs w (fun w => keepsInv_checkRange fun _ => hword w) h
  | dec w =>
    rw [exec, execDec] at h
    refine inv_of_withWidth hs w (fun w => ?_) h
    cases hdec : decSymbols (symString w s.sym) with
    | error r => exact fits_of_decSymbols_error hdec
    | ok v => exact inv_completeRes hs (toNat_ofNat_lt_two_pow_25 (decSymbols_symString_lt hdec))
  | xdec w =>
    rw [exec, execXdec] at h
    refine inv_of_withWidth hs w (fun w => ?_) h
    cases hdec : decSymbols (symString w s.sym) with
    | error r => exact fits_of_decSymbols_error hdec
    | ok v => exact keepsInv_checkRange fun _ => hrev w v
  | pack w =>
    rw [exec, execPack] at h
    refine inv_of_withWidth hs w (fun w => keepsInv_checkRange fun _ => keepsInv_checkRange fun _ =>
      ?_) h
    have hno : ∀ e, e ≠ .invalidSymbol → keepsInv (.error { err := e }) := fun _ => fits_of_no_span
    cases charToCode s (s.opa.extractLsb' 0 8) with
    | none => exact hno .unknownCharacter (by decide)
    | some k =>
      rcases packWord_cases w s.cfg (s.opb.extractLsb' 0 6) k with hr | ⟨v, hv, hlt⟩
      · simp only [hr]
        exact hno .valueTooLarge (by decide)
      · simp only [hv]
        exact inv_completeRes hs (toNat_ofNat_lt_two_pow_25 (hlt.trans (by decide)))
  | eval w =>
    rw [exec, execEval] at h
    refine inv_of_withWidth hs w (fun w => keepsInv_checkRange fun hlen => ?_) h
    cases hr : evalLine s.cfg.gate.toNat (charToCode s) w (line s) with
    | error r => exact fits_of_within (within_of_evalLine_error hr) (by rwa [line_length])
    | ok r => exact inv_completeEval hs hr

/-! ### Every step keeps the invariant -/

/-- A write of a target the map has keeps memory in its canonical form. -/
theorem wf_writeTarget {s : State} (h : s.mem.wf) {tgt : Target} (hrange : tgt.inRange) (v : Word) :
    (writeTarget s v tgt).mem.wf := by
  cases tgt with
  | lbufWord k => exact wf_writeLbufWord v hrange h
  | chartabEntry c => exact Memory.wf_write _ (isStorage_chartabAddr hrange) h
  | _ => exact h

/-- Settles O50: the reset state holds 0 in STATUS, ERRPOS and RES and lists no address. -/
theorem invariantHoldsAtReset : Obligations.InvariantHoldsAtReset :=
  ⟨Memory.wf_nil, statusLegal_of_err_zero rfl, spanLegal_zero (by decide), by decide⟩

/-- Settles O51: each case of a step keeps the invariant, a write of CMD by the lemma on
commands. -/
theorem everyStepKeepsTheInvariant : Obligations.EveryStepKeepsTheInvariant := by
  unfold Obligations.EveryStepKeepsTheInvariant
  intro s t hs h
  rcases step_cases h with ⟨-, rfl⟩ | ⟨lost, rest, -, rfl⟩ | ⟨off, tgt, rest, -, -, rfl⟩ |
    ⟨off, v, tgt, rest, -, htgt, -, rfl⟩ | ⟨c, rest, u, -, hu, rfl⟩
  · exact hs
  · exact invariantHoldsAtReset
  · exact hs
  · obtain ⟨-, hrange, -⟩ := (busTarget_eq_some_iff _ off tgt).mp htgt
    obtain ⟨hwf, hstatus, hspan, hres⟩ := hs
    exact ⟨wf_writeTarget (s := { s with pending := rest }) hwf hrange v, by simpa using hstatus,
      by simpa using hspan, by simpa using hres⟩
  · rcases runWord_cases c { s with pending := rest } with ⟨i, -, hrun⟩ | ⟨e, -, hrun⟩ <;>
      rw [hrun] at hu
    · exact exec_inv (s := { s with pending := rest }) (t := u) hs hu
    · obtain rfl := Host.Outcome.next.inj hu
      exact inv_illegal (s := { s with pending := rest }) hs

end Sys2Proof.Machine
end

section
/-! PROOFS on the codec and the packer as the host uses them (40_transform.md R102, R104, R106,
R110; 41_word.md R145, R150): one command's result as the next one's operand. -/

namespace Sys2Proof.Machine

/-! ### The codec (40_transform.md section 1) -/

/-- Settles O9: bit i of the reversal is the mirrored bit of the word. -/
theorem reverseMirrorsTheBits : Obligations.ReverseMirrorsTheBits := by
  unfold Obligations.ReverseMirrorsTheBits
  intro w x _
  refine ⟨reverseW_le_maxval w x, fun i hi => ?_⟩
  rw [testBit_reverseW, decide_eq_true hi, Bool.true_and]

/-- Settles O11: the encoding is the string of the symbols of `digitsOf`. -/
theorem encodingIsPositional : Obligations.EncodingIsPositional := by
  unfold Obligations.EncodingIsPositional
  refine fun l x _ => ⟨encSymbols_length l x, fun j hj => ?_⟩
  rw [encSymbols_eq_map, digitsOf, List.getElem?_map, List.getElem?_map, List.getElem?_range hj]
  rfl

/-- Settles O53: byte i of a number is its i-th digit in base 256. -/
theorem symbolsAreTheBytesOfSym : Obligations.SymbolsAreTheBytesOfSym := by
  unfold Obligations.SymbolsAreTheBytesOfSym
  exact fun y i _ => symByte_toNat y i

/-! ### REV of REV (R110) -/

/-- The word of a register that holds a w-bit operand reversed twice. -/
theorem ofNat_reverseW_reverseW {w : Width} {x : Word} (hx : x.toNat ≤ maxval w) :
    BitVec.ofNat 32 (reverseW w (reverseW w x.toNat)) = x := by
  rw [reverseW_reverseW hx, BitVec.ofNat_toNat, BitVec.setWidth_eq]

theorem toNat_ofNat_reverseW (w : Width) (x : Nat) :
    (BitVec.ofNat 32 (reverseW w x)).toNat = reverseW w x := by
  have hle := reverseW_le_maxval w x
  have hmax := maxval_le w
  rw [BitVec.toNat_ofNat, Nat.mod_eq_of_lt (by omega)]

/-- Settles O20: the first REV's result is a w-bit value, so the second completes too. -/
theorem revTwiceGivesTheOperandBack : Obligations.RevTwiceGivesTheOperandBack := by
  unfold Obligations.RevTwiceGivesTheOperandBack
  intro wsel s h hle
  have hres := toNat_ofNat_reverseW (effWidth wsel s.cfg) s.opa.toNat
  refine ⟨_, _, exec_rev_of_le h hle, exec_rev_of_le h ?_, ?_⟩
  · exact hres.trans_le (reverseW_le_maxval _ _)
  · simp only [completeRes_res, completeRes_cfg, hres, ofNat_reverseW_reverseW hle]

/-! ### XENC, then XDEC (R106) -/

/-- The symbols a decoding command reads are those an encoding command wrote. -/
theorem symString_symOfString {w : Width} {l : List Byte} (hlen : l.length = symCount w) :
    symString w (symOfString l) = l := by
  have hle : l.length ≤ 3 := hlen ▸ symCount_le_three w
  refine List.ext_getElem (by simp [hlen]) fun j _ hj => ?_
  simp [symString, symByte_symOfString hle, hj]

/-- What XENC puts in SYM decodes to the number it encoded. -/
theorem decSymbols_symString_encSymbols {w : Width} {x : Nat} (hx : x ≤ maxval w) :
    decSymbols (symString w (symOfString (encSymbols (symCount w) x))) = .ok x := by
  rw [symString_symOfString (encSymbols_length _ _)]
  exact decSymbols_encSymbols (hx.trans_lt (maxval_lt_pow_symCount w))

/-- A step that takes a well-formed command ends in what the command answers, with the write
accepted. -/
theorem step_of_exec {i : Instr} (hwf : i.WellFormed) {s t : State} {rest : List HostEvent}
    (hp : s.pending = cmdWrite (encode i) :: rest)
    (h : exec i { s with pending := rest } = .next t) :
    step s = .next { t with response := .accepted } :=
  stepRunsTheDecodedCommand s t _ i rest hp (decode_encode hwf) hwf h

/-- A step that takes an XENC of an operand in range leaves the symbols of the reversed operand. -/
theorem step_xenc {wsel : WSel} (h : wsel ≠ 0b11#2) {s : State} {rest : List HostEvent}
    (hp : s.pending = cmdWrite (encode (.xenc wsel)) :: rest)
    (hle : s.opa.toNat ≤ maxval (effWidth wsel s.cfg)) :
    ∃ t, step s = .next t ∧ t.pending = rest ∧ t.cfg = s.cfg ∧
      t.sym = symOfString (encSymbols (symCount (effWidth wsel s.cfg))
        (reverseW (effWidth wsel s.cfg) s.opa.toNat)) :=
  ⟨_, step_of_exec (i := .xenc wsel) h hp (exec_xenc_of_le h hle), rfl, rfl, rfl⟩

/-- A step that takes an XDEC of the symbols of a number in range leaves the reversed number. -/
theorem step_xdec {wsel : WSel} (h : wsel ≠ 0b11#2) {s : State} {rest : List HostEvent}
    (hp : s.pending = cmdWrite (encode (.xdec wsel)) :: rest) {v : Nat}
    (hdec : decSymbols (symString (effWidth wsel s.cfg) s.sym) = .ok v)
    (hle : v ≤ maxval (effWidth wsel s.cfg)) :
    ∃ t, step s = .next t ∧ t.pending = rest ∧ t.status.err = 0 ∧
      t.res = BitVec.ofNat 32 (reverseW (effWidth wsel s.cfg) v) :=
  ⟨_, step_of_exec (i := .xdec wsel) h hp (exec_xdec_of_le h hdec hle), rfl, rfl, rfl⟩

/-- A step that takes a read of RES answers with it. -/
theorem step_read_res {s : State} {rest : List HostEvent} (hp : s.pending = rd 0x014 :: rest) :
    step s = .next { s with pending := rest, response := .data s.res } := by
  rw [eq_withPending hp]
  exact step_read_of_target (tgt := .res) rfl s rest

/-- Settles O19: XENC writes the symbols of the reversed operand, XDEC reads them back as that
number and reverses it, and the read returns RES. -/
theorem xencThenXdecReturnsTheOperand : Obligations.XencThenXdecReturnsTheOperand := by
  unfold Obligations.XencThenXdecReturnsTheOperand
  intro wsel wsel' s h h' hwidth hle
  obtain ⟨t, ht, htp, htcfg, htsym⟩ := step_xenc (s := { s with pending :=
    [cmdWrite (encode (.xenc wsel)), cmdWrite (encode (.xdec wsel')), rd 0x014] }) h rfl hle
  have htwidth : effWidth wsel' t.cfg = effWidth wsel s.cfg := by rw [htcfg, ← hwidth]
  have hrev := reverseW_le_maxval (effWidth wsel s.cfg) s.opa.toNat
  have hdec := decSymbols_symString_encSymbols hrev
  rw [← htwidth] at hrev hdec
  obtain ⟨u, hu, hup, huerr, hures⟩ := step_xdec h' htp (htsym ▸ htwidth ▸ hdec) hrev
  rw [htwidth, ofNat_reverseW_reverseW hle] at hures
  exact ⟨t, u, _, ht, hu, step_read_res hup, congrArg _ hures, huerr, rfl⟩

/-! ### PACK, then UNPACK (41_word.md R145, R150) -/

/-- PACK's word, composed from operands in range, is a w-bit value with the code in its low bits. -/
theorem packed_bounds {w : Width} {p : Prop} [Decidable p] {opb entry : Nat} (hopb : opb ≤ 0x3F)
    (hvalid : 128 ≤ entry) (hentry : entry < 256) (hfit : w = .w16 ∨ opb ≤ 1) :
    (if w = .w16 ∧ p then 0xE000 else 0) + 128 * opb + (entry - 128) ≤ maxval w ∧
      entry = 128 + ((if w = .w16 ∧ p then 0xE000 else 0) + 128 * opb + (entry - 128)) % 128 := by
  cases w with
  | w8 =>
    have hcol : opb ≤ 1 := by simpa using hfit
    have hmax : maxval .w8 = 255 := rfl
    simp only [reduceCtorEq, false_and, if_false]
    omega
  | w16 =>
    have hmax : maxval .w16 = 65535 := rfl
    split <;> omega

/-- A PACK that ends without error made all its checks, and its word holds the code of its character
in the low seven bits. -/
theorem exec_pack_completes {wsel : WSel} (h : wsel ≠ 0b11#2) {s t : State}
    (ht : exec (.pack wsel) s = .next t) (herr : t.status.err = 0) :
    s.opa.toNat ≤ 0xFF ∧ t.cfg = s.cfg ∧ t.mem = s.mem ∧
      t.res.toNat ≤ maxval (effWidth wsel s.cfg) ∧
      (s.mem.read (0x400 + 4 * s.opa.toNat)).toNat = 128 + t.res.toNat % 128 := by
  obtain ⟨-, hword, hopaErr, hopbErr, hunknown, htooLarge⟩ := packComposesTheWord wsel s h
  have hno : ∀ {code : BitVec 4}, code ≠ 0 →
      exec (.pack wsel) s ≠ .next (errorState code 0 0 s) := by
    intro code hcode hr
    obtain rfl := Host.Outcome.next.inj (hr.symm.trans ht)
    exact hcode herr
  have hopa : s.opa.toNat ≤ 0xFF := Nat.not_lt.mp fun hlt => hno (by decide) (hopaErr hlt)
  have hopb : s.opb.toNat ≤ 0x3F := Nat.not_lt.mp fun hlt => hno (by decide) (hopbErr hopa hlt)
  have hvalid : 128 ≤ (s.mem.read (0x400 + 4 * s.opa.toNat)).toNat :=
    Nat.not_lt.mp fun hlt => hno (by decide) (hunknown hopa hopb hlt)
  have hfit : effWidth wsel s.cfg = .w16 ∨ s.opb.toNat ≤ 1 := by
    cases hw : effWidth wsel s.cfg with
    | w16 => exact .inl rfl
    | w8 =>
      exact .inr (Nat.not_lt.mp fun hlt => hno (by decide) (htooLarge hopa hopb hvalid hw hlt))
  obtain rfl := Host.Outcome.next.inj ((hword hopa hopb hvalid hfit).symm.trans ht)
  obtain ⟨hle, hcode⟩ := packed_bounds (p := s.cfg.profile = 1#1) hopb hvalid (by omega) hfit
  have hmax := maxval_le (effWidth wsel s.cfg)
  refine ⟨hopa, rfl, rfl, ?_⟩
  rw [BitVec.toNat_ofNat, Nat.mod_eq_of_lt (by omega)]
  exact ⟨hle, hcode⟩

/-- UNPACK of a w-bit word whose code some character has hits the lowest such character. -/
theorem exec_unpack_hits {wsel : WSel} (h : wsel ≠ 0b11#2) {s : State}
    (hle : s.opa.toNat ≤ maxval (effWidth wsel s.cfg)) {c : Nat} (hc : c ≤ 0xFF)
    (hit : (s.mem.read (0x400 + 4 * c)).toNat = 128 + s.opa.toNat % 128) :
    ∃ d ≤ c, (s.mem.read (0x400 + 4 * d)).toNat = 128 + s.opa.toNat % 128 ∧
      exec (.unpack wsel) s = .next (okState { s with
        res := BitVec.ofNat 32 (s.opa.toNat + 0x10000 * d) }) := by
  obtain ⟨-, hhit, -⟩ := unpackFindsTheLowestCharacter wsel s h
  have hex : ∃ d, (s.mem.read (0x400 + 4 * d)).toNat = 128 + s.opa.toNat % 128 := ⟨c, hit⟩
  have hd : Nat.find hex ≤ c := Nat.find_le hit
  exact ⟨Nat.find hex, hd, Nat.find_spec hex,
    hhit _ (hd.trans hc) hle (Nat.find_spec hex) fun _ => Nat.find_min hex⟩

/-- Settles O23: the character packed has the code of the packed word, so UNPACK hits one that is at
most it, with an equal entry. -/
theorem unpackOfPackIsAHit : Obligations.UnpackOfPackIsAHit := by
  unfold Obligations.UnpackOfPackIsAHit
  intro wsel s t h ht herr
  obtain ⟨hopa, hcfg, hmem, hle, hentry⟩ := exec_pack_completes h ht herr
  obtain ⟨c, hc, hit, hu⟩ := exec_unpack_hits (s := { t with opa := t.res }) h (hcfg ▸ hle) hopa
    (hmem ▸ hentry)
  have hmax := maxval_le (effWidth wsel s.cfg)
  have hres : (BitVec.ofNat 32 (t.res.toNat + 0x10000 * c)).toNat = t.res.toNat + 0x10000 * c := by
    rw [BitVec.toNat_ofNat, Nat.mod_eq_of_lt (by omega)]
  exact ⟨_, c, hu, hres, hc, BitVec.eq_of_toNat_eq ((hmem ▸ hit).trans hentry.symm), rfl⟩

end Sys2Proof.Machine
end

section
/-! PROOFS of the bus registers (20_memory.md R53, R54; 10_state.md R21 to R32): what a read of each
register returns, and what it returns after a write. -/

namespace Sys2Proof.Machine

/-! ### The words of the registers (10_state.md R21 to R32) -/

theorem Cfg.toWord_eq_ofNat (c : Cfg) :
    c.toWord = BitVec.ofNat 32 (c.mode.toNat + 2 * c.profile.toNat + 4 * c.gate.toNat +
      256 * c.fallback.toNat) := by
  apply BitVec.eq_of_toNat_eq
  simp only [Cfg.toWord, toNat_append_eq_add, BitVec.toNat_ofNat]
  omega

theorem Status.toWord_eq_ofNat (st : Status) :
    st.toWord = BitVec.ofNat 32 (st.err.toNat + 16 * st.empty.toNat + 32 * st.sticky.toNat) := by
  apply BitVec.eq_of_toNat_eq
  simp only [Status.toWord, toNat_append_eq_add, BitVec.toNat_ofNat]
  omega

theorem ErrPos.toWord_eq_ofNat (p : ErrPos) :
    p.toWord = BitVec.ofNat 32 (p.pos.toNat + 65536 * p.len.toNat) := by
  apply BitVec.eq_of_toNat_eq
  simp only [ErrPos.toWord, toNat_append_eq_add, BitVec.toNat_ofNat]
  omega

/-- A register read with zeros above its implemented bits. -/
theorem zero_append_eq_ofNat {m n : Nat} (x : BitVec n) :
    0#m ++ x = BitVec.ofNat (m + n) x.toNat := by
  apply BitVec.eq_of_toNat_eq
  have hlt : x.toNat < 2 ^ (m + n) :=
    x.isLt.trans_le (Nat.pow_le_pow_right (by decide) (Nat.le_add_left n m))
  rw [toNat_append_eq_add, BitVec.toNat_ofNat x.toNat, Nat.mod_eq_of_lt hlt, BitVec.toNat_ofNat,
    Nat.zero_mod, Nat.zero_mul, Nat.zero_add]

/-- Settles O46: every read answers with the word of its register, which is the sum of its fields at
their bits. -/
theorem registerReadsReturnTheFields : Obligations.RegisterReadsReturnTheFields := by
  unfold Obligations.RegisterReadsReturnTheFields
  intro s rest reads
  have hread : ∀ {off : Offset} {tgt : Target} {n : Nat}, busTarget .word off = some tgt →
      readTarget s tgt = BitVec.ofNat 32 n → reads off n := fun htgt hn =>
    (step_read_of_target htgt s rest).trans (by rw [hn])
  have hword : ∀ v : Word, v = BitVec.ofNat 32 v.toNat := fun v => by simp
  exact ⟨hread (tgt := .cfg) rfl s.cfg.toWord_eq_ofNat,
    hread (tgt := .status) rfl s.status.toWord_eq_ofNat, hread (tgt := .cmd) rfl rfl,
    hread (tgt := .opa) rfl (hword s.opa), hread (tgt := .opb) rfl (hword s.opb),
    hread (tgt := .res) rfl (hword s.res), hread (tgt := .sym) rfl (zero_append_eq_ofNat s.sym),
    hread (tgt := .llen) rfl (zero_append_eq_ofNat s.llen),
    hread (tgt := .errpos) rfl s.errpos.toWord_eq_ofNat⟩

/-! ### A read after a write (20_memory.md R53, R54) -/

/-- The writable bits of a target. -/
def Target.mask : Target → Word
  | .cfg => 0x0000FF3F
  | .sym => 0x00FFFFFF
  | .llen => 0x000001FF
  | .chartabEntry _ => 0x000000FF
  | .opa => 0xFFFFFFFF
  | .opb => 0xFFFFFFFF
  | .lbufWord _ => 0xFFFFFFFF
  | _ => 0

/-- Above the registers the writable bits are those of the two windows. -/
theorem writableMask_of_window {off : Nat} (h : 0x020 < off) :
    writableMask off = if 0x400 ≤ off then 0x000000FF else 0xFFFFFFFF := by
  rw [writableMask, if_neg (by omega), if_neg (by omega), if_neg (by omega), if_neg (by omega)]

theorem writableMask_offset {tgt : Target} (h : tgt.inRange) :
    writableMask tgt.offset = tgt.mask := by
  cases tgt with
  | lbufWord k =>
    have hk : k < 64 := h
    rw [Target.offset, writableMask_of_window (by omega), if_neg (by omega), Target.mask]
  | chartabEntry c =>
    rw [Target.offset, writableMask_of_window (by omega), if_pos (by omega), Target.mask]
  | _ => rfl

/-- The bits of `v` where the mask is 1 and those of `old` elsewhere. -/
def mergeBits {n : Nat} (mask v old : BitVec n) : BitVec n := (v &&& mask) ||| (old &&& ~~~ mask)

theorem getLsbD_mergeBits {n i : Nat} (hi : i < n) (mask v old : BitVec n) :
    (mergeBits mask v old).getLsbD i = if mask.getLsbD i then v.getLsbD i else old.getLsbD i := by
  rw [mergeBits, BitVec.getLsbD_or, BitVec.getLsbD_and, BitVec.getLsbD_and, BitVec.getLsbD_not]
  cases mask.getLsbD i <;> simp [hi]

theorem mergeBits_zero {n : Nat} (v old : BitVec n) : mergeBits 0 v old = old := by simp [mergeBits]

theorem mergeBits_allOnes {n : Nat} (v old : BitVec n) :
    mergeBits (BitVec.allOnes n) v old = v := by
  simp [mergeBits]

/-- A register of the low bits of a word, with zeros above them, takes those bits of the word
written. -/
theorem mergeBits_zero_append {m n : Nat} {mask : BitVec (m + n)}
    (hmask : ∀ i < m + n, mask.getLsbD i = decide (i < n)) (v : BitVec (m + n)) (x : BitVec n) :
    mergeBits mask v (0#m ++ x) = 0#m ++ v.extractLsb' 0 n := by
  apply BitVec.eq_of_getLsbD_eq
  intro i hi
  rw [getLsbD_mergeBits hi, hmask i hi, BitVec.getLsbD_append, BitVec.getLsbD_append,
    BitVec.getLsbD_extractLsb']
  by_cases hin : i < n <;> simp [hin]

/-- CFG takes the bits of its four fields. -/
theorem mergeBits_cfg (v : Word) (c : Cfg) :
    mergeBits 0x0000FF3F v c.toWord = (Cfg.ofWord v).toWord := by
  apply BitVec.eq_of_getLsbD_eq
  intro i hi
  rw [getLsbD_mergeBits hi]
  simp only [Cfg.toWord, Cfg.ofWord, BitVec.getLsbD_append, BitVec.getLsbD_extractLsb']
  interval_cases i <;> simp

/-- The four bytes of a word, put together. -/
theorem append_extractLsb'_bytes (v : Word) :
    v.extractLsb' 24 8 ++ v.extractLsb' 16 8 ++ v.extractLsb' 8 8 ++ v.extractLsb' 0 8 = v := by
  apply BitVec.eq_of_toNat_eq
  simp only [toNat_append_eq_add, BitVec.extractLsb'_toNat, Nat.shiftRight_eq_div_pow]
  omega

/-- A byte of the LBUF word just written. -/
theorem lbuf_writeTarget_self {s : State} (hm : s.mem.wf) {k j : Nat} (hk : k < 64) (hj : j < 4)
    (v : Word) :
    lbuf (writeTarget s v (.lbufWord k)) (4 * k + j) = v.extractLsb' (8 * j) 8 :=
  read_writeLbufWord hm (Nat.le_of_lt_succ hk) hj v

/-- A read of the target just written returns the bits written where they are writable and the old
ones elsewhere. -/
theorem readTarget_writeTarget_self {s : State} (hm : s.mem.wf) {tgt : Target} (h : tgt.inRange)
    (v : Word) :
    readTarget (writeTarget s v tgt) tgt = mergeBits tgt.mask v (readTarget s tgt) := by
  cases tgt with
  | cfg => exact (mergeBits_cfg v s.cfg).symm
  | opa => exact (mergeBits_allOnes v s.opa).symm
  | opb => exact (mergeBits_allOnes v s.opb).symm
  | sym => exact (mergeBits_zero_append (m := 8) (mask := 0x00FFFFFF) (by decide) v s.sym).symm
  | llen => exact (mergeBits_zero_append (m := 23) (mask := 0x000001FF) (by decide) v s.llen).symm
  | status => exact (mergeBits_zero v _).symm
  | cmd => exact (mergeBits_zero v _).symm
  | res => exact (mergeBits_zero v _).symm
  | errpos => exact (mergeBits_zero v _).symm
  | lbufWord k =>
    have hbyte := fun j (hj : j < 4) => lbuf_writeTarget_self hm h hj v
    have h0 : lbuf (writeTarget s v (.lbufWord k)) (4 * k) = v.extractLsb' 0 8 :=
      hbyte 0 (by decide)
    rw [readTarget, hbyte 3 (by decide), hbyte 2 (by decide), hbyte 1 (by decide), h0]
    exact (append_extractLsb'_bytes v).trans (mergeBits_allOnes v _).symm
  | chartabEntry c =>
    have hbyte : (writeTarget s v (.chartabEntry c)).mem.read (chartabAddr c) = v.extractLsb' 0 8 :=
      Memory.read_write_self _ hm
    rw [readTarget, hbyte]
    exact (mergeBits_zero_append (m := 24) (n := 8) (mask := 0x000000FF) (by decide) v _).symm

/-- The bytes of the line buffer lie below the character table. -/
theorem lbufAddr_ne_chartabAddr {i : Nat} (hi : i < 256) (c : Nat) :
    lbufAddr i ≠ chartabAddr c := by
  simp only [lbufAddr, lbufBase, chartabAddr, chartabBase]
  omega

/-- A write of a word of the line buffer keeps the bytes of every other word. -/
theorem lbuf_writeTarget_lbufWord {k j i : Nat} (hkj : k ≠ j) (hi : i < 4) (s : State) (v : Word) :
    lbuf (writeTarget s v (.lbufWord k)) (4 * j + i) = lbuf s (4 * j + i) :=
  read_writeLbufWord_of_ne (fun i' hi' => by unfold lbufAddr; omega) s.mem v

/-- A write of an entry of the character table keeps the line buffer. -/
theorem lbuf_writeTarget_chartabEntry {i : Nat} (hi : i < 256) (c : Nat) (s : State) (v : Word) :
    lbuf (writeTarget s v (.chartabEntry c)) i = lbuf s i :=
  Memory.read_write_ne _ (lbufAddr_ne_chartabAddr hi c).symm s.mem

/-- A word of the line buffer is read from its four bytes. -/
theorem readTarget_lbufWord_congr {s t : State} {k : Nat}
    (h : ∀ i < 4, lbuf s (4 * k + i) = lbuf t (4 * k + i)) :
    readTarget s (.lbufWord k) = readTarget t (.lbufWord k) := by
  have h0 : lbuf s (4 * k) = lbuf t (4 * k) := h 0 (by decide)
  rw [readTarget, readTarget, h0, h 1 (by decide), h 2 (by decide), h 3 (by decide)]

/-- A read of any other target returns what it returned before. -/
theorem readTarget_writeTarget_ne {tgt other : Target} (hne : tgt ≠ other) (h : tgt.inRange)
    (hother : other.inRange) (s : State) (v : Word) :
    readTarget (writeTarget s v tgt) other = readTarget s other := by
  cases tgt with
  | status => rfl
  | cmd => rfl
  | res => rfl
  | errpos => rfl
  | cfg =>
    cases other with
    | cfg => contradiction
    | _ => rfl
  | opa =>
    cases other with
    | opa => contradiction
    | _ => rfl
  | opb =>
    cases other with
    | opb => contradiction
    | _ => rfl
  | sym =>
    cases other with
    | sym => contradiction
    | _ => rfl
  | llen =>
    cases other with
    | llen => contradiction
    | _ => rfl
  | lbufWord k =>
    have hk : k < 64 := h
    cases other with
    | lbufWord j =>
      have hkj : k ≠ j := fun heq => hne (congrArg _ heq)
      exact readTarget_lbufWord_congr fun i hi => lbuf_writeTarget_lbufWord hkj hi s v
    | chartabEntry c =>
      have hframe : (writeTarget s v (.lbufWord k)).mem.read (chartabAddr c) =
          s.mem.read (chartabAddr c) :=
        read_writeLbufWord_of_ne (fun j hj => lbufAddr_ne_chartabAddr (by omega) c) s.mem v
      rw [readTarget, readTarget, hframe]
    | _ => rfl
  | chartabEntry c =>
    cases other with
    | lbufWord j =>
      have hj : j < 64 := hother
      exact readTarget_lbufWord_congr fun i hi => lbuf_writeTarget_chartabEntry (by omega) c s v
    | chartabEntry d =>
      have hcd : chartabAddr c ≠ chartabAddr d := fun heq => hne <| by
        simp only [chartabAddr] at heq
        exact congrArg _ (by omega)
      have hframe : (writeTarget s v (.chartabEntry c)).mem.read (chartabAddr d) =
          s.mem.read (chartabAddr d) := Memory.read_write_ne _ hcd s.mem
      rw [readTarget, readTarget, hframe]
    | _ => rfl

@[simp] theorem readTarget_withResponse (s : State) (r : Response) (tgt : Target) :
    readTarget { s with response := r } tgt = readTarget s tgt := by
  cases tgt <;> rfl

/-- A mapped offset has a target in range, and the writable bits are the target's. -/
theorem exists_target_of_isMapped {off : Offset} (h : isMapped off.toNat) :
    ∃ tgt, busTarget .word off = some tgt ∧ tgt.inRange ∧ tgt.offset = off.toNat := by
  obtain ⟨tgt, hrange, hoff⟩ := (isMapped_iff off.isLt).mp h
  exact ⟨tgt, (busTarget_eq_some_iff .word off tgt).mpr ⟨rfl, hrange, hoff⟩, hrange, hoff⟩

/-- Settles O49: the two offsets are those of two targets, which are equal exactly when the offsets
are; the step's own fields change no read. -/
theorem writesReadBackAndChangeNoOtherWord : Obligations.WritesReadBackAndChangeNoOtherWord := by
  unfold Obligations.WritesReadBackAndChangeNoOtherWord
  intro s off other v hm hoff hother hcmd
  obtain ⟨tgt, htgt, hrange, htoff⟩ := exists_target_of_isMapped hoff
  obtain ⟨tgt', htgt', hrange', htoff'⟩ := exists_target_of_isMapped hother
  have hne : tgt ≠ .cmd := fun heq => hcmd (busTarget_eq_cmd (heq ▸ htgt)).2
  refine ⟨_, _, _, step_write_of_target htgt hne s v [], step_read_of_target htgt' s [],
    step_read_of_target htgt' _ [], fun hdiff => ?other, fun heq => ?same⟩
  case other =>
    have hne' : tgt ≠ tgt' := fun heq =>
      hdiff (BitVec.eq_of_toNat_eq (by rw [← htoff, ← htoff', heq]))
    rw [readTarget_withResponse, readTarget_writeTarget_ne hne' hrange hrange',
      readTarget_withPending]
  case same =>
    subst heq
    obtain rfl := Option.some.inj (htgt.symm.trans htgt')
    rw [readTarget_withResponse,
      readTarget_writeTarget_self (s := { s with pending := [] }) hm hrange,
      readTarget_withPending, ← htoff, writableMask_offset hrange]
    rfl

end Sys2Proof.Machine
end

section
/-! PROOFS of the rules of every command (10_state.md R39, 60_exceptions.md R210, R214, R219): what
it writes, what it leaves, and what its results depend on. -/

namespace Sys2Proof.Machine

/-! ### What a command writes (R39, R214) -/

/-- Settles O39: of the cases of a command, an error changes STATUS and ERRPOS only, NOP changes
nothing, and every other one leaves no error code. -/
theorem errorsAreAllOrNothing : Obligations.ErrorsAreAllOrNothing := by
  unfold Obligations.ErrorsAreAllOrNothing
  intro c s t h herr
  rcases runWord_cases c s with ⟨i, hi, hrun⟩ | ⟨e, -, hrun⟩ <;> rw [hrun] at h
  · rcases exec_cases i s with ⟨r, hr⟩ | ⟨hn, hr⟩ | ⟨-, hr⟩ |
      ⟨-, -, ⟨-, v, hr⟩ | ⟨-, y, hr⟩ | ⟨-, hr⟩⟩ <;>
      obtain rfl := Host.Outcome.next.inj (hr.symm.trans h)
    · exact .inr rfl
    · cases i with
      | nop wsel => exact .inl ⟨wsel, hi, rfl⟩
      | _ => contradiction
    all_goals exact absurd rfl herr
  · obtain rfl := Host.Outcome.next.inj h
    exact .inr rfl

/-- Settles O40: by the cases of a command; only a value is written to RES and only symbols to
SYM, and no case writes memory. -/
theorem commandsWriteOnlyTheirResults : Obligations.CommandsWriteOnlyTheirResults := by
  unfold Obligations.CommandsWriteOnlyTheirResults
  intro i s
  rcases exec_cases i s with ⟨r, hr⟩ | ⟨-, hr⟩ | ⟨-, hr⟩ |
    ⟨-, -, ⟨hres, v, hr⟩ | ⟨hsym, y, hr⟩ | ⟨-, hr⟩⟩
  · exact ⟨_, hr, rfl, fun _ => rfl, fun _ => rfl, fun _ => rfl⟩
  · exact ⟨_, hr, rfl, fun _ => rfl, fun _ => rfl, fun _ => rfl⟩
  · exact ⟨_, hr, rfl, fun _ => rfl, fun _ => rfl, fun _ => rfl⟩
  · exact ⟨_, hr, rfl, fun hno => absurd hres (by simp [hno]), fun _ => rfl, fun _ => rfl⟩
  · exact ⟨_, hr, rfl, fun _ => rfl, fun hno => absurd hsym (by simp [hno]), fun _ => rfl⟩
  · exact ⟨_, hr, rfl, fun _ => rfl, fun _ => rfl, fun _ => rfl⟩

/-! ### What the results depend on (R39)

The bodies of one command on two states that agree on its inputs have one effect: the same value,
the same symbols, an empty line or the same error. -/

/-- Two bodies, of states `s` and `s'`, that have one effect. -/
inductive SameEffect (s s' : State) : Except Raised State → Except Raised State → Prop
  | res (v : Word) : SameEffect s s' (.ok (completeRes v s)) (.ok (completeRes v s'))
  | sym (y : BitVec 24) : SameEffect s s' (.ok (completeSym y s)) (.ok (completeSym y s'))
  | empty : SameEffect s s' (.ok (completeEmpty s)) (.ok (completeEmpty s'))
  | error (r : Raised) : SameEffect s s' (.error r) (.error r)

/-- The states after a command are equal in what it wrote. -/
def sameResults (s s' t t' : State) : Prop :=
  (t.status.err = t'.status.err ∧ t.status.empty = t'.status.empty ∧ t.errpos = t'.errpos) ∧
    ((t.res = s.res ∧ t'.res = s'.res) ∨ t.res = t'.res) ∧
    ((t.sym = s.sym ∧ t'.sym = s'.sym) ∨ t.sym = t'.sym)

theorem SameEffect.checkRange {s s' : State} {b b' : Except Raised State} (h : SameEffect s s' b b')
    (v max : Nat) : SameEffect s s' (checkRange v max b) (checkRange v max b') := by
  unfold Machine.checkRange
  split
  · exact .error operandRange
  · exact h

theorem sameResults_raise (s s' : State) (r : Raised) : sameResults s s' (raise r s) (raise r s') :=
  ⟨⟨rfl, rfl, rfl⟩, .inl ⟨rfl, rfl⟩, .inl ⟨rfl, rfl⟩⟩

theorem SameEffect.settle {s s' : State} {b b' : Except Raised State} (h : SameEffect s s' b b') :
    sameResults s s' (settle s b) (settle s' b') := by
  cases h with
  | res v => exact ⟨⟨rfl, rfl, rfl⟩, .inr rfl, .inl ⟨rfl, rfl⟩⟩
  | sym y => exact ⟨⟨rfl, rfl, rfl⟩, .inl ⟨rfl, rfl⟩, .inr rfl⟩
  | empty => exact ⟨⟨rfl, rfl, rfl⟩, .inl ⟨rfl, rfl⟩, .inl ⟨rfl, rfl⟩⟩
  | error r => exact sameResults_raise s s' r

/-- The width of a command depends on CFG.MODE only. -/
theorem effWidth_congr {cfg cfg' : Cfg} (h : cfg.mode = cfg'.mode) (wsel : WSel) :
    effWidth wsel cfg = effWidth wsel cfg' := by
  unfold effWidth
  rw [h]

theorem sameResults_of_withWidth {s s' t t' : State} {wsel : WSel}
    {body body' : Width → Except Raised State} (hmode : s.cfg.mode = s'.cfg.mode)
    (hbody : ∀ w, SameEffect s s' (body w) (body' w)) (h : withWidth wsel s body = .next t)
    (h' : withWidth wsel s' body' = .next t') : sameResults s s' t t' := by
  rw [withWidth_next] at h h'
  obtain rfl := Host.Outcome.next.inj h
  obtain rfl := Host.Outcome.next.inj h'
  rw [← effWidth_congr hmode]
  split
  · exact sameResults_raise s s' _
  · exact (hbody _).settle

/-! ### The inputs of each command -/

theorem charToCode_of_sameTable {s t : State} (h : sameTable s t) :
    charToCode s = charToCode t := by
  funext c
  rw [charToCode, charToCode, h c]

theorem packWord_congr {cfg cfg' : Cfg} (h : cfg.profile = cfg'.profile) (w : Width)
    (col : BitVec 6) (k : BitVec 7) : packWord w cfg col k = packWord w cfg' col k := by
  cases w <;> simp only [packWord, h]

/-- The reverse lookup depends on the table and on CFG.FALLBACK. -/
theorem codeToChar_congr {s t : State} (htab : sameTable s t)
    (hfallback : s.cfg.fallback = t.cfg.fallback) (k : BitVec 7) :
    codeToChar s k = codeToChar t k := by
  have hcode : hasCode s k = hasCode t k := by
    funext c
    rw [hasCode, hasCode, charToCode_of_sameTable htab]
  simp only [codeToChar, hcode, hfallback]

theorem unpackWord_congr {s t : State} (htab : sameTable s t)
    (hfallback : s.cfg.fallback = t.cfg.fallback) (hopa : s.opa = t.opa) (w : Width) :
    unpackWord w s = unpackWord w t := by
  simp only [unpackWord, codeToChar_congr htab hfallback, hopa]

/-- Two states that agree on what a command other than NOP reads end in the same results. -/
theorem exec_sameResults {i : Instr} {s s' t t' : State} (hn : isNop i = false)
    (hin : sameInputs i s s') (h : exec i s = .next t) (h' : exec i s' = .next t') :
    sameResults s s' t t' := by
  cases i with
  | nop w => contradiction
  | clrerr w =>
    rw [exec, execClrerr, withoutWidth_next] at h h'
    obtain rfl := Host.Outcome.next.inj h
    obtain rfl := Host.Outcome.next.inj h'
    split
    · exact sameResults_raise s s' _
    · exact ⟨⟨rfl, rfl, rfl⟩, .inl ⟨rfl, rfl⟩, .inl ⟨rfl, rfl⟩⟩
  | rev w =>
    obtain ⟨hmode, hopa⟩ := hin
    rw [exec, execRev] at h h'
    rw [← hopa] at h'
    exact sameResults_of_withWidth hmode (fun w => (SameEffect.res _).checkRange _ _) h h'
  | enc w =>
    obtain ⟨hmode, hopa⟩ := hin
    rw [exec, execEnc] at h h'
    rw [← hopa] at h'
    exact sameResults_of_withWidth hmode (fun w => (SameEffect.sym _).checkRange _ _) h h'
  | xenc w =>
    obtain ⟨hmode, hopa⟩ := hin
    rw [exec, execXenc] at h h'
    rw [← hopa] at h'
    exact sameResults_of_withWidth hmode (fun w => (SameEffect.sym _).checkRange _ _) h h'
  | dec w =>
    obtain ⟨hmode, hsym⟩ := hin
    rw [exec, execDec] at h h'
    rw [← hsym] at h'
    refine sameResults_of_withWidth hmode (fun w => ?_) h h'
    cases decSymbols (symString w s.sym) with
    | ok v => exact .res _
    | error r => exact .error r
  | xdec w =>
    obtain ⟨hmode, hsym⟩ := hin
    rw [exec, execXdec] at h h'
    rw [← hsym] at h'
    refine sameResults_of_withWidth hmode (fun w => ?_) h h'
    cases decSymbols (symString w s.sym) with
    | ok v => exact (SameEffect.res _).checkRange _ _
    | error r => exact .error r
  | pack w =>
    obtain ⟨hmode, hprofile, hopa, hopb, htab⟩ := hin
    rw [exec, execPack] at h h'
    rw [← hopa, ← hopb, ← charToCode_of_sameTable htab] at h'
    refine sameResults_of_withWidth hmode
      (fun w => SameEffect.checkRange (.checkRange ?_ _ _) _ _) h h'
    cases charToCode s (s.opa.extractLsb' 0 8) with
    | none => exact .error _
    | some k =>
      simp only [← packWord_congr hprofile]
      cases packWord w s.cfg (s.opb.extractLsb' 0 6) k with
      | ok v => exact .res _
      | error r => exact .error r
  | unpack w =>
    obtain ⟨hmode, hfallback, hopa, htab⟩ := hin
    rw [exec, execUnpack] at h h'
    simp only [← hopa, ← unpackWord_congr htab hfallback hopa] at h'
    exact sameResults_of_withWidth hmode (fun w => (SameEffect.res _).checkRange _ _) h h'
  | eval w =>
    obtain ⟨hmode, hgate, hlen, hbuf, htab⟩ := hin
    rw [exec, execEval] at h h'
    rw [← hlen, ← hgate, ← charToCode_of_sameTable htab, ← line_congr hlen hbuf] at h'
    refine sameResults_of_withWidth hmode (fun w => SameEffect.checkRange ?_ _ _) h h'
    cases evalLine s.cfg.gate.toNat (charToCode s) w (line s) with
    | error r => exact .error r
    | ok r =>
      cases r with
      | none => exact .empty
      | some v => exact .res _

/-- Settles O41: NOP writes nothing or is an error, and every other command has one effect on the
two states. -/
theorem commandsDependOnlyOnTheirInputs : Obligations.CommandsDependOnlyOnTheirInputs := by
  unfold Obligations.CommandsDependOnlyOnTheirInputs
  intro i s s' t t' hin h h'
  cases hn : isNop i with
  | false =>
    obtain ⟨hstatus, hres, hsym⟩ := exec_sameResults hn hin h h'
    exact ⟨fun _ => hstatus, hres, hsym⟩
  | true =>
    obtain ⟨u, hu, -, hres, hsym, -⟩ := commandsWriteOnlyTheirResults i s
    obtain ⟨u', hu', -, hres', hsym', -⟩ := commandsWriteOnlyTheirResults i s'
    obtain rfl := Host.Outcome.next.inj (hu.symm.trans h)
    obtain rfl := Host.Outcome.next.inj (hu'.symm.trans h')
    cases i with
    | nop w =>
      exact ⟨nofun, .inl ⟨hres rfl, hres' rfl⟩, .inl ⟨hsym rfl, hsym' rfl⟩⟩
    | _ => contradiction

end Sys2Proof.Machine
end

section
/-! PROOFS of the family 42_evaluator.md, part 5: whole lines (R170 to R174). A line is a text and
its comment; the text is whitespace only, or a token with whitespace around it. A body that is no
literal is the sum of the raw parts of its text, in which whitespace at either end of the text makes
no difference. -/

namespace Sys2Proof.Machine

/-! ### Empty and too long lines (R174) -/

theorem evalLine_of_isWs {gate : Nat} {code : Byte → Option (BitVec 7)} {w : Width} {l : List Byte}
    (h : ∀ b ∈ slice l 0 (textLength l), isWs b = true) : evalLine gate code w l = .ok none := by
  simp only [evalLine, trim_of_isWs h, if_true]

theorem lbuf_of_line_getElem? {s : State} {j : Nat} {b : Byte} (h : (line s)[j]? = some b) :
    j < s.llen.toNat ∧ lbuf s j = b := by
  have hj : j < s.llen.toNat := by
    obtain ⟨hj, -⟩ := List.getElem?_eq_some_iff.mp h
    rwa [line_length] at hj
  exact ⟨hj, Option.some.inj ((line_getElem? s hj).symm.trans h)⟩

theorem isWs_chSlash : isWs chSlash = false := by decide

/-- The text of a line of whitespace, or of whitespace before a "//", is that whitespace. -/
theorem textLength_of_isWs {s : State} {k : Nat} (hws : ∀ j < k, isWs (lbuf s j) = true)
    (hend : k = s.llen.toNat ∨
      k + 1 < s.llen.toNat ∧ lbuf s k = chSlash ∧ lbuf s (k + 1) = chSlash) :
    textLength (line s) = k := by
  have hno : ∀ j < k, ¬ slashesAt (line s) j := by
    rintro j hj ⟨hslash, -⟩
    obtain ⟨-, hb⟩ := lbuf_of_line_getElem? hslash
    exact absurd (hws j hj) (by rw [hb, isWs_chSlash]; decide)
  rcases hend with rfl | ⟨hk, hslash, hslash'⟩
  · rw [textLength_of_none, line_length]
    rintro j ⟨hslash, hslash'⟩
    exact hno j (lbuf_of_line_getElem? hslash).1 ⟨hslash, hslash'⟩
  · refine textLength_of_first ⟨?_, ?_⟩ hno
    · rw [line_getElem? s (by omega)]
      exact congrArg some hslash
    · rw [line_getElem? s hk]
      exact congrArg some hslash'

/-- Settles O30: the text of such a line is whitespace, so it trims to an empty span. -/
theorem evalOfAnEmptyOrTooLongLine : Obligations.EvalOfAnEmptyOrTooLongLine := by
  unfold Obligations.EvalOfAnEmptyOrTooLongLine
  intro wsel s h
  refine ⟨encode_eq_ofNat (.eval wsel), exec_eval_of_gt h, fun k hk hlen hws hend => ?_⟩
  have htext := textLength_of_isWs hws hend
  refine exec_eval_of_ok h hlen (r := none) (evalLine_of_isWs fun b hb => ?_)
  obtain ⟨j, hj⟩ := List.mem_iff_getElem?.mp hb
  have hjk : j < k := by
    obtain ⟨hj, -⟩ := List.getElem?_eq_some_iff.mp hj
    rwa [slice_length (textLength_le _), htext] at hj
  rw [htext, slice_getElem? _ (by omega), Nat.zero_add] at hj
  obtain ⟨-, rfl⟩ := lbuf_of_line_getElem? hj
  exact hws j hjk

/-! ### Texts in a line -/

/-- The bytes `t` stand in the line at index `a`. -/
def standsAt (l : List Byte) (a : Nat) (t : List Byte) : Prop := slice l a (a + t.length) = t

theorem standsAt_zero (t comment : List Byte) : standsAt (t ++ comment) 0 t := by
  simp [standsAt, slice]

theorem standsAt_append {l : List Byte} {a : Nat} {u v : List Byte} (h : standsAt l a (u ++ v)) :
    standsAt l a u ∧ standsAt l (a + u.length) v := by
  have hpieces : slice l a (a + (u ++ v).length) = u ++ v ++ [] := by rwa [List.append_nil]
  obtain ⟨hu, hv, -⟩ := slice_pieces (Nat.le_add_right a _) hpieces
  exact ⟨hu, hv⟩

theorem standsAt_of_zero {l u v : List Byte} (h : standsAt l 0 (u ++ v)) :
    standsAt l u.length v := by
  have hv := (standsAt_append h).2
  rwa [Nat.zero_add] at hv

theorem getElem?_of_standsAt {l : List Byte} {a : Nat} {b : Byte} {t : List Byte}
    (h : standsAt l a (b :: t)) : l[a]? = some b := by
  obtain ⟨hbyte, -⟩ := standsAt_append (u := [b]) h
  have hget := slice_getElem? l (a := a) (z := a + 1) (i := 0) (by omega)
  rw [show slice l a (a + 1) = [b] from hbyte] at hget
  exact hget.symm

theorem lt_length_of_standsAt {l : List Byte} {a : Nat} {b : Byte} {t : List Byte}
    (h : standsAt l a (b :: t)) : a < l.length := by
  obtain ⟨hlt, -⟩ := List.getElem?_eq_some_iff.mp (getElem?_of_standsAt h)
  exact hlt

/-- The token of a part that stands in the line. -/
theorem slice_token {l : List Byte} {a : Nat} {p : Part} (h : standsAt l a p.text) :
    slice l (a + p.before.length) (a + p.before.length + p.token.length) = p.token := by
  obtain ⟨-, htoken, -⟩ := slice_pieces (Nat.le_add_right a _) h
  exact htoken

/-- Two adjacent spans of a line. -/
theorem slice_append_slice (l : List Byte) {a b z : Nat} (hab : a ≤ b) (hbz : b ≤ z) :
    slice l a b ++ slice l b z = slice l a z := by
  have htake : l.take b = (l.take z).take b := by rw [List.take_take, Nat.min_eq_left hbz]
  have hdrop : (l.take z).drop b = ((l.take z).drop a).drop (b - a) := by
    rw [List.drop_drop, Nat.add_sub_cancel' hab]
  rw [slice, slice, slice, htake, List.drop_take, hdrop, List.take_append_drop]

/-- A part with more text around it. -/
def Part.pad (u v : List Byte) (p : Part) : Part :=
  { before := u ++ p.before, token := p.token, after := p.after ++ v }

theorem Part.pad_text (u v : List Byte) (p : Part) : (p.pad u v).text = u ++ p.text ++ v := by
  simp [Part.pad, Part.text]

theorem Part.pad_trimmed {u v : List Byte} {p : Part} (hu : ∀ b ∈ u, isWs b = true)
    (hv : ∀ b ∈ v, isWs b = true) (hp : p.trimmed) : (p.pad u v).trimmed := by
  obtain ⟨hbefore, hafter, htoken⟩ := hp
  exact ⟨fun b hb => (List.mem_append.mp hb).elim (hu b) (hbefore b),
    fun b hb => (List.mem_append.mp hb).elim (hafter b) (hv b), htoken⟩

theorem isWs_chPlus : isWs chPlus = false := by decide

theorem chPlus_not_mem_of_isWs {t : List Byte} (h : ∀ b ∈ t, isWs b = true) : chPlus ∉ t :=
  fun hmem => absurd (h _ hmem) (by rw [isWs_chPlus]; decide)

/-- A part holds a '+' only in its token. -/
theorem chPlus_not_mem_text {p : Part} (hp : p.trimmed) (h : chPlus ∉ p.token) :
    chPlus ∉ p.text := by
  obtain ⟨hbefore, hafter, -⟩ := hp
  simp only [Part.text, List.mem_append, not_or]
  exact ⟨⟨chPlus_not_mem_of_isWs hbefore, h⟩, chPlus_not_mem_of_isWs hafter⟩

/-- The token of a part begins where the part's whitespace ends, whatever follows the part. -/
theorem takeWhile_dropWhile_text {p : Part} (hp : p.trimmed) (rest : List Byte) :
    (p.text ++ rest).takeWhile isWs = p.before ∧
      ((p.text ++ rest).dropWhile isWs).head? = p.token.head? := by
  obtain ⟨hbefore, -, hne, hhead, -⟩ := hp
  have htext : p.text ++ rest = p.before ++ (p.token ++ (p.after ++ rest)) := by
    simp [Part.text, List.append_assoc]
  have hhead' : ∀ b ∈ (p.token ++ (p.after ++ rest)).head?, isWs b = false := by
    rwa [List.head?_append_of_ne_nil _ hne]
  rw [htext, List.takeWhile_append_of_pos hbefore, List.dropWhile_append_of_pos hbefore,
    takeWhile_isWs_of_head hhead', dropWhile_isWs_of_head hhead', List.append_nil,
    List.head?_append_of_ne_nil _ hne]
  exact ⟨rfl, rfl⟩

/-- A text that begins with a part is a token with whitespace around it, and the token begins as the
part's. -/
theorem exists_part_of_text_append {p : Part} (hp : p.trimmed) (rest : List Byte) :
    ∃ q : Part, q.trimmed ∧ q.text = p.text ++ rest ∧ q.before = p.before ∧
      q.token.head? = p.token.head? := by
  obtain ⟨htake, hdrop⟩ := takeWhile_dropWhile_text hp rest
  rcases isWs_or_exists_part (p.text ++ rest) with hws | ⟨q, hq, htext⟩
  · rw [List.dropWhile_eq_nil_iff.mpr hws, List.head?_nil, eq_comm, List.head?_eq_none_iff] at hdrop
    exact absurd hdrop (Part.token_ne_nil hp)
  · obtain ⟨htake', hdrop'⟩ := takeWhile_dropWhile_text hq []
    rw [List.append_nil, htext] at htake' hdrop'
    exact ⟨q, hq, htext, htake'.symm.trans htake, hdrop'.symm.trans hdrop⟩

/-! ### Raw parts (R171) -/

/-- Bytes that are no '+' belong to the raw part before them. -/
theorem rawParts_append_of_plus_not_mem {u : List Byte} (h : chPlus ∉ u) (t : List Byte) :
    ∀ start at' : Nat, rawParts start at' (u ++ t) = rawParts start (at' + u.length) t := by
  induction u with
  | nil => exact fun _ _ => rfl
  | cons b u ih =>
    intro start at'
    obtain ⟨hb, hu⟩ := not_or.mp (List.mem_cons.not.mp h)
    rw [List.cons_append, rawParts, if_neg (Ne.symm hb), ih hu, List.length_cons, Nat.add_assoc,
      Nat.add_comm 1]

/-- A '+' ends a raw part and begins the next. -/
theorem rawParts_plus (start at' : Nat) (t : List Byte) :
    rawParts start at' (chPlus :: t) = (start, at') :: rawParts (at' + 1) (at' + 1) t := by
  rw [rawParts, if_pos rfl]

/-- The first raw part ends at the text's end or at a '+'. -/
theorem rawParts_of_tail {u tail : List Byte} (h : chPlus ∉ u)
    (htail : tail = [] ∨ tail.head? = some chPlus) (a : Nat) :
    ∃ rest, rawParts a a (u ++ tail) = (a, a + u.length) :: rest := by
  rw [rawParts_append_of_plus_not_mem h]
  rcases htail with rfl | hhead
  · exact ⟨[], rfl⟩
  · obtain ⟨t, rfl⟩ := List.head?_eq_some_iff.mp hhead
    exact ⟨_, rawParts_plus a _ t⟩

/-- Where the first raw part ends does not depend on where it starts. -/
theorem exists_rawParts_eq_cons (t : List Byte) (at' : Nat) :
    ∃ e rest, at' ≤ e ∧ ∀ start, rawParts start at' t = (start, e) :: rest := by
  induction t generalizing at' with
  | nil => exact ⟨at', [], le_refl _, fun _ => rfl⟩
  | cons b t ih =>
    by_cases hb : b = chPlus
    · exact ⟨at', _, le_refl _, fun start => by rw [rawParts, if_pos hb]⟩
    · obtain ⟨e, rest, hle, h⟩ := ih (at' + 1)
      exact ⟨e, rest, by omega, fun start => by rw [rawParts, if_neg hb, h]⟩

section
variable {gate : Nat} {code : Byte → Option (BitVec 7)} {w : Width} {l : List Byte}

/-- Whitespace around a raw part that is not empty makes no difference to its value. -/
theorem partValue_of_isWs_around {a b y z : Nat} (hab : a ≤ b) (hby : b ≤ y) (hyz : y ≤ z)
    (hb : b ≤ l.length) (hbefore : ∀ c ∈ slice l a b, isWs c = true)
    (hafter : ∀ c ∈ slice l y z, isWs c = true) (hne : ¬ ∀ c ∈ slice l b y, isWs c = true) :
    partValue gate code w l (a, z) = partValue gate code w l (b, y) := by
  obtain ⟨p, hp, htext⟩ := (isWs_or_exists_part (slice l b y)).resolve_left hne
  have hpadded : slice l a z = (p.pad (slice l a b) (slice l y z)).text := by
    rw [Part.pad_text, htext, slice_append_slice l hab hby,
      slice_append_slice l (hab.trans hby) hyz]
  have hstart : a + (slice l a b ++ p.before).length = b + p.before.length := by
    rw [List.length_append, slice_length hb]
    omega
  rw [partValue_of_part htext.symm hp,
    partValue_of_part hpadded (Part.pad_trimmed hbefore hafter hp), ← hstart]
  rfl

/-- Whitespace after a raw part, empty or not, makes no difference to its value. -/
theorem partValue_of_isWs_after {a y z : Nat} (hay : a ≤ y) (hyz : y ≤ z) (ha : a ≤ l.length)
    (hafter : ∀ c ∈ slice l y z, isWs c = true) :
    partValue gate code w l (a, z) = partValue gate code w l (a, y) := by
  by_cases hws : ∀ c ∈ slice l a y, isWs c = true
  · rw [partValue_of_isWs hws, partValue_of_isWs]
    rw [← slice_append_slice l hay hyz]
    exact fun c hc => (List.mem_append.mp hc).elim (hws c) (hafter c)
  · exact partValue_of_isWs_around (le_refl a) hay hyz ha (by simp [slice]) hafter hws

theorem sumParts_congr_cons {value : Nat × Nat → Except Raised Nat} {p q : Nat × Nat}
    {ps qs : List (Nat × Nat)} (h : value p = value q)
    (hrest : ∀ acc, sumParts value acc ps = sumParts value acc qs) (acc : Nat) :
    sumParts value acc (p :: ps) = sumParts value acc (q :: qs) := by
  simp only [sumParts, h, hrest]

/-- Whitespace at the end of a text makes no difference to the sum of its parts: it belongs to the
last one. -/
theorem sumParts_rawParts_append_isWs {ws : List Byte} (hws : ∀ b ∈ ws, isWs b = true)
    (t : List Byte) : ∀ {start at' : Nat} (acc : Nat), start ≤ at' → at' ≤ l.length →
    standsAt l at' (t ++ ws) →
    sumParts (partValue gate code w l) acc (rawParts start at' (t ++ ws)) =
      sumParts (partValue gate code w l) acc (rawParts start at' t) := by
  have hplus := chPlus_not_mem_of_isWs hws
  induction t with
  | nil =>
    intro start at' acc hle hlen hat
    rw [List.nil_append, rawParts_of_plus_not_mem hplus]
    refine sumParts_congr_cons (partValue_of_isWs_after hle (Nat.le_add_right _ _)
      (hle.trans hlen) ?_) (fun _ => rfl) acc
    rw [show slice l at' (at' + ws.length) = ws from hat]
    exact hws
  | cons b t ih =>
    intro start at' acc hle hlen hat
    obtain ⟨-, hat'⟩ := standsAt_append (u := [b]) hat
    have hlen' : at' + 1 ≤ l.length := lt_length_of_standsAt hat
    rw [List.cons_append, rawParts, rawParts]
    split
    · exact sumParts_congr_cons rfl (fun acc => ih acc (le_refl _) hlen' hat') acc
    · exact ih acc (Nat.le_succ_of_le hle) hlen' hat'

/-- Whitespace before a text whose first raw part is not empty makes no difference to the sum of its
parts. -/
theorem sumParts_rawParts_isWs_append {ws : List Byte} (hws : ∀ b ∈ ws, isWs b = true) {b : Byte}
    {t : List Byte} (hb : isWs b = false) (hplus : b ≠ chPlus) (hat : standsAt l 0 (ws ++ b :: t))
    (acc : Nat) :
    sumParts (partValue gate code w l) acc (rawParts 0 0 (ws ++ b :: t)) =
      sumParts (partValue gate code w l) acc (rawParts ws.length ws.length (b :: t)) := by
  have hplus' := chPlus_not_mem_of_isWs hws
  obtain ⟨hatws, hatb⟩ := standsAt_append hat
  simp only [standsAt, Nat.zero_add] at hatws
  rw [Nat.zero_add] at hatb
  obtain ⟨e, rest, he, hraw⟩ := exists_rawParts_eq_cons t (ws.length + 1)
  have hmem : b ∈ slice l ws.length e :=
    mem_slice_of_getElem? (le_refl _) he (getElem?_of_standsAt hatb)
  rw [rawParts_append_of_plus_not_mem hplus', Nat.zero_add, rawParts, rawParts, if_neg hplus,
    if_neg hplus, hraw, hraw]
  refine sumParts_congr_cons (partValue_of_isWs_around (Nat.zero_le _) (Nat.le_of_lt he) (le_refl e)
    (Nat.le_of_lt (lt_length_of_standsAt hatb)) (by rwa [hatws]) (by simp [slice])
    fun hall => ?_) (fun _ => rfl) acc
  exact absurd (hall b hmem) (by rw [hb]; decide)

/-- The body of a line that is no literal and begins with no '+' is the sum of the parts of its
whole text. -/
theorem bodyValue_of_whole {p : Part} (hp : p.trimmed) (hat : standsAt l 0 p.text)
    (hlit : lit gate code p.token = none) (hhead : p.token.head? ≠ some chPlus) :
    bodyValue gate code w l p.before.length (p.before.length + p.token.length) =
      sumParts (partValue gate code w l) 0 (rawParts 0 0 p.text) := by
  have htoken := slice_token hat
  rw [Nat.zero_add] at htoken
  rw [bodyValue_of_lit_none (by rwa [htoken]), htoken]
  obtain ⟨hbefore, hafter, hne, hfirst, -⟩ := hp
  obtain ⟨b, t, hbt⟩ := List.exists_cons_of_ne_nil hne
  rw [hbt, List.head?_cons] at hfirst hhead
  rw [Part.text, sumParts_rawParts_append_isWs hafter _ 0 (le_refl 0) (Nat.zero_le _) hat, hbt,
    sumParts_rawParts_isWs_append hbefore (hfirst b rfl) (fun heq => hhead (congrArg some heq))
      (hbt ▸ (standsAt_append hat).1)]

/-! ### Values and errors of the parts (R170, R171) -/

theorem term_of_tokenValue {a z v : Nat} (h : TokenValue gate code w (slice l a z) v) :
    term gate code w l a z = .ok v := by
  rcases h with hlit | ⟨n, hn, h1, hnw, rfl⟩
  · exact term_of_lit hlit
  · exact term_of_bitIndex hn h1 hnw

theorem partValue_of_tokenValue {a v : Nat} {p : Part} (hp : p.trimmed) (hat : standsAt l a p.text)
    (hv : TokenValue gate code w p.token v) :
    partValue gate code w l (a, a + p.text.length) = .ok v := by
  rw [partValue_of_part hat hp]
  exact term_of_tokenValue ((slice_token hat).symm ▸ hv)

/-- Parts, each with the '+' after it. -/
def plusParts : List Part → List Byte
  | [] => []
  | p :: ps => p.text ++ chPlus :: plusParts ps

theorem joinParts_concat (ps : List Part) (p : Part) :
    joinParts (ps ++ [p]) = plusParts ps ++ p.text := by
  induction ps with
  | nil => rfl
  | cons q ps ih =>
    cases ps with
    | nil => simp [joinParts, plusParts]
    | cons r ps =>
      calc joinParts (q :: (r :: ps ++ [p]))
          = q.text ++ chPlus :: joinParts (r :: ps ++ [p]) := rfl
        _ = plusParts (q :: r :: ps) ++ p.text := by rw [ih]; simp [plusParts]

theorem joinParts_append_plus {ps : List Part} (h : ps ≠ []) :
    joinParts ps ++ [chPlus] = plusParts ps := by
  induction ps with
  | nil => contradiction
  | cons q ps ih =>
    cases ps with
    | nil => rfl
    | cons r ps =>
      rw [plusParts, ← ih (List.cons_ne_nil r ps), joinParts, List.append_assoc, List.cons_append]

/-- Parts that have values have a list of them. -/
theorem exists_tokenValues {good : List Part}
    (h : ∀ q ∈ good, ∃ v, TokenValue gate code w q.token v) :
    ∃ vs, List.Forall₂ (fun q v => TokenValue gate code w q.token v) good vs := by
  induction good with
  | nil => exact ⟨[], .nil⟩
  | cons q good ih =>
    obtain ⟨v, hv⟩ := h q (.head _)
    obtain ⟨vs, hvs⟩ := ih fun r hr => h r (.tail _ hr)
    exact ⟨v :: vs, .cons hv hvs⟩

/-- Parts in order are summed, and the sum goes on with what follows their last '+'. -/
theorem sumParts_plusParts {good : List Part} {vs : List Nat}
    (hgood : ∀ q ∈ good, q.trimmed ∧ chPlus ∉ q.token)
    (hvs : List.Forall₂ (fun q v => TokenValue gate code w q.token v) good vs)
    (rest : List Byte) : ∀ {a : Nat} (acc : Nat), standsAt l a (plusParts good ++ rest) →
      sumParts (partValue gate code w l) acc (rawParts a a (plusParts good ++ rest)) =
        sumParts (partValue gate code w l) (acc + vs.sum)
          (rawParts (a + (plusParts good).length) (a + (plusParts good).length) rest) := by
  induction hvs with
  | nil => exact fun _ _ => rfl
  | @cons q v good vs hv _ ih =>
    intro a acc hat
    obtain ⟨hq, hplus⟩ := hgood q (.head _)
    have hend : a + (plusParts (q :: good)).length =
        a + q.text.length + 1 + (plusParts good).length := by
      simp only [plusParts, List.length_append, List.length_cons]
      omega
    rw [hend]
    rw [plusParts, List.append_assoc] at hat ⊢
    obtain ⟨hatq, hatrest⟩ := standsAt_append hat
    have hatgood : standsAt l (a + q.text.length + 1) (plusParts good ++ rest) :=
      (standsAt_append (u := [chPlus]) hatrest).2
    have hvalue := partValue_of_tokenValue hq hatq hv
    rw [rawParts_append_of_plus_not_mem (chPlus_not_mem_text hq hplus), List.cons_append,
      rawParts_plus]
    simp only [sumParts, hvalue]
    rw [ih (fun r hr => hgood r (.tail _ hr)) _ hatgood, List.sum_cons, Nat.add_assoc]

/-- Parts in order are followed by a part that is not: its error ends the sum. -/
theorem sumParts_of_bad {good : List Part}
    (hgood : ∀ q ∈ good, q.trimmed ∧ chPlus ∉ q.token ∧ ∃ v, TokenValue gate code w q.token v)
    {u tail : List Byte} (hu : chPlus ∉ u) (htail : tail = [] ∨ tail.head? = some chPlus)
    (hat : standsAt l 0 (plusParts good ++ (u ++ tail))) {r : Raised}
    (hr : partValue gate code w l ((plusParts good).length, (plusParts good).length + u.length) =
      .error r) :
    sumParts (partValue gate code w l) 0 (rawParts 0 0 (plusParts good ++ (u ++ tail))) =
      .error r := by
  obtain ⟨vs, hvs⟩ := exists_tokenValues fun q hq => have ⟨_, _, hv⟩ := hgood q hq; hv
  obtain ⟨rest, hraw⟩ := rawParts_of_tail hu htail (plusParts good).length
  rw [sumParts_plusParts (fun q hq => have ⟨hq, hplus, _⟩ := hgood q hq; ⟨hq, hplus⟩) hvs _ 0 hat,
    Nat.zero_add, Nat.zero_add, hraw, sumParts_of_error hr]

end

/-! ### Bodies that are no literal (R168) -/

/-- A token with a '+' in it is no literal, unless it is the '+' alone. -/
theorem lit_of_plus_mem {gate : Nat} {code : Byte → Option (BitVec 7)} {t : List Byte}
    (h : chPlus ∈ t) (hne : t ≠ [chPlus]) : lit gate code t = none := by
  have hbin : binLit gate t = none := Option.eq_none_iff_forall_ne_some.mpr fun v hv => by
    obtain ⟨-, hall, -⟩ := (binLit_eq_some_iff gate t v).mp hv
    exact absurd (hall _ h) (by decide)
  have hdec : decLit t = none := Option.eq_none_iff_forall_ne_some.mpr fun v hv => by
    obtain ⟨-, hall, -⟩ := (decLit_eq_some_iff t v).mp hv
    exact absurd (hall _ h) (by decide)
  have hhex : hexLit t = none := Option.eq_none_iff_forall_ne_some.mpr fun v hv => by
    obtain ⟨b, ds, rfl, hb, -, hall, -⟩ := (hexLit_eq_some_iff t v).mp hv
    rcases List.mem_cons.mp h with rfl | hmem
    · exact absurd hb (by decide)
    · exact absurd (hall _ hmem) (by decide)
  have hchar : charLit code t = none := Option.eq_none_iff_forall_ne_some.mpr fun v hv => by
    obtain ⟨c, k, rfl, -, -⟩ := (charLit_eq_some_iff code t v).mp hv
    exact hne (congrArg (fun b => [b]) (List.mem_singleton.mp h).symm)
  simp [lit, hbin, hdec, hhex, hchar]

theorem head?_ne_of_not_mem {t : List Byte} {b : Byte} (h : b ∉ t) : t.head? ≠ some b :=
  fun hhead => h (List.mem_of_mem_head? hhead)

theorem ne_singleton_of_head? {t : List Byte} {b : Byte} (h : t.head? ≠ some b) : t ≠ [b] := by
  rintro rfl
  exact h rfl

/-- A '+' in the text of a part is in its token. -/
theorem chPlus_mem_token {p : Part} (hp : p.trimmed) (h : chPlus ∈ p.text) : chPlus ∈ p.token := by
  by_contra hno
  exact chPlus_not_mem_text hp hno h

/-! ### EVAL of a line whose text is a part (R173, R174) -/

section
variable {wsel : WSel} (h : wsel ≠ 0b11#2) {s : State} (hlen : s.llen.toNat ≤ Config.lineMax)
  {p : Part} {comment : List Byte} (hp : p.trimmed) (hline : line s = p.text ++ comment)
  (htext : textLength (line s) = p.text.length)
include hp hline htext

theorem trim_of_text :
    trim (line s) 0 (textLength (line s)) =
      (p.before.length, p.before.length + p.token.length) := by
  have hat : standsAt (line s) 0 p.text := hline ▸ standsAt_zero p.text comment
  rw [standsAt, Nat.zero_add] at hat
  rw [htext, trim_of_part hat hp, Nat.zero_add]

include h hlen

/-- The value of the body is checked against the width, over the token. -/
theorem exec_eval_of_body_ok {v : Nat}
    (hv : bodyValue s.cfg.gate.toNat (charToCode s) (effWidth wsel s.cfg) (line s) p.before.length
      (p.before.length + p.token.length) = .ok v) :
    (v ≤ maxval (effWidth wsel s.cfg) →
      exec (.eval wsel) s = .next (okState { s with res := BitVec.ofNat 32 v })) ∧
    (maxval (effWidth wsel s.cfg) < v →
      exec (.eval wsel) s = .next (errorState 4 p.before.length p.token.length s)) := by
  have htrim := trim_of_text hp hline htext
  have hpos := List.length_pos_of_ne_nil (Part.token_ne_nil hp)
  have hne : p.before.length ≠ p.before.length + p.token.length := by omega
  refine ⟨fun hle => exec_eval_of_ok h hlen (evalLine_of_ok htrim hne hv hle), fun hlt => ?_⟩
  have herr : evalLine s.cfg.gate.toNat (charToCode s) (effWidth wsel s.cfg) (line s) =
      .error { err := .valueTooLarge, pos := p.before.length, len := p.token.length } := by
    simp only [evalLine, htrim, if_neg hne, hv, if_pos hlt, Nat.add_sub_cancel_left]
  exact exec_eval_of_error h hlen herr

/-- The error of the body is that of the line. -/
theorem exec_eval_of_body_error {r : Raised}
    (hr : bodyValue s.cfg.gate.toNat (charToCode s) (effWidth wsel s.cfg) (line s) p.before.length
      (p.before.length + p.token.length) = .error r) :
    exec (.eval wsel) s = .next (raise r s) := by
  have hpos := List.length_pos_of_ne_nil (Part.token_ne_nil hp)
  exact exec_eval_of_error h hlen
    (evalLine_of_error (trim_of_text hp hline htext) (by omega) hr)

end

/-- Settles O31: a literal is the value of the body itself; a bit index is no literal and holds no
'+', so it is the one part of the body. -/
theorem evalOfOneToken : Obligations.EvalOfOneToken := by
  unfold Obligations.EvalOfOneToken
  intro wsel s p comment v h hlen hline htext hp hv
  have hat : standsAt (line s) 0 p.text := hline ▸ standsAt_zero p.text comment
  refine exec_eval_of_body_ok h hlen hp hline htext ?_
  match hv with
  | .inl hlit =>
    have htoken := slice_token hat
    rw [Nat.zero_add] at htoken
    exact bodyValue_of_lit (by rwa [htoken])
  | .inr ⟨n, hn, _⟩ =>
    obtain ⟨-, hplus⟩ := isToken_of_bitIndex hn
    rw [bodyValue_of_whole hp hat (lit_of_bitIndex _ hn) (head?_ne_of_not_mem hplus),
      rawParts_of_plus_not_mem (chPlus_not_mem_text hp hplus), sumParts_singleton]
    exact partValue_of_tokenValue hp hat hv

/-! ### EVAL of a sum (R171) -/

/-- The part that two or more joined parts are: from the first token to the last. -/
def joinedPart (p : Part) (mid : List Part) (q : Part) : Part :=
  { before := p.before
    token := p.token ++ (p.after ++ chPlus :: (plusParts mid ++ q.before)) ++ q.token
    after := q.after }

theorem joinedPart_text (p : Part) (mid : List Part) (q : Part) :
    (joinedPart p mid q).text = joinParts (p :: (mid ++ [q])) := by
  rw [← List.cons_append, joinParts_concat]
  simp [plusParts, Part.text, joinedPart]

theorem joinedPart_head? {p : Part} (hp : p.trimmed) (mid : List Part) (q : Part) :
    (joinedPart p mid q).token.head? = p.token.head? := by
  rw [joinedPart, List.append_assoc, List.head?_append_of_ne_nil _ (Part.token_ne_nil hp)]

theorem chPlus_mem_joinedPart (p : Part) (mid : List Part) (q : Part) :
    chPlus ∈ (joinedPart p mid q).token := by simp [joinedPart]

theorem joinedPart_trimmed {p q : Part} (hp : p.trimmed) (hq : q.trimmed) (mid : List Part) :
    (joinedPart p mid q).trimmed := by
  have hhead' := joinedPart_head? hp mid q
  obtain ⟨hbefore, -, hpne, hhead, -⟩ := hp
  obtain ⟨-, hafter, hqne, -, hlast⟩ := hq
  refine ⟨hbefore, hafter, by simp [joinedPart, hpne], by rwa [hhead'], ?_⟩
  rwa [joinedPart, List.getLast?_append_of_ne_nil _ hqne]

/-- The joined parts without the whitespace at both ends. -/
theorem joinedPart_token_length (p : Part) (mid : List Part) (q : Part) :
    (joinedPart p mid q).token.length =
      (joinParts (p :: (mid ++ [q]))).length - p.before.length - q.after.length := by
  have hlength := congrArg List.length (joinedPart_text p mid q)
  rw [Part.text, List.length_append, List.length_append] at hlength
  have hends : (joinedPart p mid q).before = p.before ∧ (joinedPart p mid q).after = q.after :=
    ⟨rfl, rfl⟩
  rw [hends.1, hends.2] at hlength
  omega

theorem exists_of_forall₂_concat {α β : Type} {R : α → β → Prop} {xs : List α} {x : α} {ys : List β}
    (h : List.Forall₂ R (xs ++ [x]) ys) :
    ∃ zs y, ys = zs ++ [y] ∧ List.Forall₂ R xs zs ∧ R x y := by
  have htake := (List.forall₂_take_append _ _ _ h.flip).flip
  obtain ⟨y, zs, hy, hnil, hdrop⟩ :=
    List.forall₂_cons_right_iff.mp (List.forall₂_drop_append _ _ _ h.flip)
  rw [List.forall₂_nil_right_iff.mp hnil] at hdrop
  exact ⟨_, y, by rw [← hdrop, List.take_append_drop], htake, hy⟩

/-- Settles O32: the parts before the last are summed, then the last; the text is one part from the
first token to the last. -/
theorem evalOfASum : Obligations.EvalOfASum := by
  unfold Obligations.EvalOfASum
  intro wsel s p ps vs comment h hlen hps hline htext hparts hvs
  obtain ⟨mid, q, rfl⟩ := ps.eq_nil_or_concat'.resolve_left hps
  obtain ⟨hp, hplus⟩ := hparts p (by simp)
  obtain ⟨hq, hqplus⟩ := hparts q (by simp)
  obtain ⟨us, v, rfl, hus, hv⟩ := exists_of_forall₂_concat (xs := p :: mid) hvs
  have hat : standsAt (line s) 0 (joinParts (p :: (mid ++ [q]))) := hline ▸ standsAt_zero _ comment
  have hsum : sumParts (partValue s.cfg.gate.toNat (charToCode s) (effWidth wsel s.cfg) (line s)) 0
      (rawParts 0 0 (joinParts (p :: (mid ++ [q])))) = .ok (us ++ [v]).sum := by
    rw [← List.cons_append, joinParts_concat] at hat ⊢
    have hvalue := partValue_of_tokenValue hq (standsAt_of_zero hat) hv
    rw [sumParts_plusParts (fun r hr => hparts r (List.mem_append_left [q] hr)) hus _ 0 hat,
      rawParts_of_plus_not_mem (chPlus_not_mem_text hq hqplus)]
    simp [sumParts, hvalue]
  have hlast : (mid ++ [q]).getLastD p = q := by simp
  rw [hlast, ← joinedPart_token_length]
  rw [← joinedPart_text] at hline htext hat hsum
  have hwhole := joinedPart_trimmed hp hq mid
  have hhead : (joinedPart p mid q).token.head? ≠ some chPlus :=
    (joinedPart_head? hp mid q).trans_ne (head?_ne_of_not_mem hplus)
  have hlit := lit_of_plus_mem (gate := s.cfg.gate.toNat) (code := charToCode s)
    (chPlus_mem_joinedPart p mid q) (ne_singleton_of_head? hhead)
  exact exec_eval_of_body_ok h hlen hwhole hline htext
    ((bodyValue_of_whole hwhole hat hlit hhead).trans hsum)

/-! ### EVAL of a sum with a part that is not in order (R171, R172) -/

/-- EVAL of a text that begins with a part and is no literal ends with the error of the sum of its
parts. -/
theorem exec_eval_of_sumParts_error {wsel : WSel} (h : wsel ≠ 0b11#2) {s : State}
    (hlen : s.llen.toNat ≤ Config.lineMax) {p : Part} (hp : p.trimmed) (hplus : chPlus ∉ p.token)
    {rest comment : List Byte} (hline : line s = p.text ++ rest ++ comment)
    (htext : textLength (line s) = (p.text ++ rest).length)
    (hlit : chPlus ∈ rest ∨ rest = [] ∧ lit s.cfg.gate.toNat (charToCode s) p.token = none)
    {r : Raised}
    (hr : sumParts (partValue s.cfg.gate.toNat (charToCode s) (effWidth wsel s.cfg) (line s)) 0
      (rawParts 0 0 (p.text ++ rest)) = .error r) :
    exec (.eval wsel) s = .next (raise r s) := by
  obtain ⟨q, hq, hqtext, hqhead, hqlit⟩ : ∃ q : Part, q.trimmed ∧ q.text = p.text ++ rest ∧
      q.token.head? = p.token.head? ∧
      lit s.cfg.gate.toNat (charToCode s) q.token = none := by
    rcases hlit with hmem | ⟨rfl, hlit⟩
    · obtain ⟨q, hq, hqtext, -, hqhead⟩ := exists_part_of_text_append hp rest
      have hqplus := chPlus_mem_token hq (by rw [hqtext]; exact List.mem_append_right _ hmem)
      have hne := ne_singleton_of_head? (hqhead.trans_ne (head?_ne_of_not_mem hplus))
      exact ⟨q, hq, hqtext, hqhead, lit_of_plus_mem hqplus hne⟩
    · exact ⟨p, hp, (List.append_nil _).symm, rfl, hlit⟩
  rw [← hqtext] at hline htext hr
  have hat : standsAt (line s) 0 q.text := hline ▸ standsAt_zero q.text comment
  have hhead : q.token.head? ≠ some chPlus := hqhead.trans_ne (head?_ne_of_not_mem hplus)
  exact exec_eval_of_body_error h hlen hq hline htext
    ((bodyValue_of_whole hq hat hqlit hhead).trans hr)

/-- The text of a sum begins with its first part. -/
theorem exists_first_part {good : List Part} (hgood : ∀ q ∈ good, q.trimmed ∧ chPlus ∉ q.token)
    (hne : good ≠ []) (t : List Byte) :
    ∃ (p : Part) (rest : List Byte), p.trimmed ∧ chPlus ∉ p.token ∧
      plusParts good ++ t = p.text ++ rest ∧ chPlus ∈ rest := by
  obtain ⟨p, ps, rfl⟩ := List.exists_cons_of_ne_nil hne
  obtain ⟨hp, hplus⟩ := hgood p (.head _)
  exact ⟨p, chPlus :: (plusParts ps ++ t), hp, hplus, by simp [plusParts], .head _⟩

/-- EVAL of parts in order and then a raw part `u` that is not: its error ends the evaluation,
whatever follows it. -/
theorem exec_eval_of_bad_part {wsel : WSel} (h : wsel ≠ 0b11#2) {s : State}
    (hlen : s.llen.toNat ≤ Config.lineMax) {good : List Part}
    (hgood : ∀ q ∈ good, q.trimmed ∧ chPlus ∉ q.token ∧
      ∃ v, TokenValue s.cfg.gate.toNat (charToCode s) (effWidth wsel s.cfg) q.token v)
    {u tail comment : List Byte} (hu : chPlus ∉ u) (htail : tail = [] ∨ tail.head? = some chPlus)
    (hline : line s = plusParts good ++ (u ++ tail) ++ comment)
    (htext : textLength (line s) = (plusParts good ++ (u ++ tail)).length)
    (hfirst : good ≠ [] ∨ ∃ p : Part, p.trimmed ∧ chPlus ∉ p.token ∧ u = p.text ∧
      lit s.cfg.gate.toNat (charToCode s) p.token = none)
    {r : Raised}
    (hr : partValue s.cfg.gate.toNat (charToCode s) (effWidth wsel s.cfg) (line s)
      ((plusParts good).length, (plusParts good).length + u.length) = .error r) :
    exec (.eval wsel) s = .next (raise r s) := by
  have hat : standsAt (line s) 0 (plusParts good ++ (u ++ tail)) := hline ▸ standsAt_zero _ comment
  have hsum := sumParts_of_bad hgood hu htail hat hr
  by_cases hne : good = []
  · subst hne
    obtain ⟨p, hp, hplus, rfl, hlit⟩ := hfirst.resolve_left (· rfl)
    refine exec_eval_of_sumParts_error h hlen hp hplus hline htext ?_ hsum
    rcases htail with rfl | hhead
    · exact .inr ⟨rfl, hlit⟩
    · exact .inl (List.mem_of_mem_head? hhead)
  · obtain ⟨p, rest, hp, hplus, htextp, hmem⟩ :=
      exists_first_part (fun q hq => have ⟨hq, hplus, _⟩ := hgood q hq; ⟨hq, hplus⟩) hne (u ++ tail)
    rw [htextp] at hline htext hsum
    exact exec_eval_of_sumParts_error h hlen hp hplus hline htext (.inl hmem) hsum

/-- Settles O33: the part's value is its token's as a term, which is no literal. -/
theorem evalStopsAtTheFirstBadTerm : Obligations.EvalStopsAtTheFirstBadTerm := by
  unfold Obligations.EvalStopsAtTheFirstBadTerm
  intro wsel s good bad tail comment w gate upTo at' h hlen hline htext htail hgood hbad hplus hlit
  have hupTo : upTo = plusParts good ++ bad.text := joinParts_concat good bad
  have hpos : at' = (plusParts good).length + bad.before.length := by
    simp only [at', hupTo, Part.text, List.length_append]
    omega
  rw [hupTo, List.append_assoc (plusParts good)] at hline htext
  have hat : standsAt (line s) 0 (plusParts good ++ (bad.text ++ tail)) :=
    hline ▸ standsAt_zero _ comment
  have hatbad := (standsAt_append (standsAt_of_zero hat)).1
  have htoken := slice_token hatbad
  have herror : ∀ {r : Raised}, term gate (charToCode s) w (line s) at' (at' + bad.token.length) =
      .error r → exec (.eval wsel) s = .next (raise r s) := fun hr =>
    exec_eval_of_bad_part h hlen hgood (chPlus_not_mem_text hbad hplus) htail hline htext
      (.inr ⟨bad, hbad, hplus, rfl, hlit⟩)
      ((partValue_of_part hatbad hbad).trans (by rwa [← hpos]))
  rw [← hpos] at htoken
  refine ⟨fun hbit => ?_, fun n hn hout => ?_⟩
  · rw [herror (term_of_none (by rwa [htoken]) (by rwa [htoken])), Nat.add_sub_cancel_left]
    rfl
  · rw [herror (term_of_bitIndex_out (by rwa [htoken]) hout), Nat.add_sub_cancel_left]
    rfl

/-- EVAL of a text that begins with '+', after whitespace, and is no literal: its first part is
empty. -/
theorem exec_eval_of_plus_first {wsel : WSel} (h : wsel ≠ 0b11#2) {s : State}
    (hlen : s.llen.toNat ≤ Config.lineMax) {p : Part} {comment : List Byte} (hp : p.trimmed)
    (hline : line s = p.text ++ comment) (htext : textLength (line s) = p.text.length)
    (hhead : p.token.head? = some chPlus)
    (hlit : lit s.cfg.gate.toNat (charToCode s) p.token = none) :
    exec (.eval wsel) s = .next (errorState 2 p.before.length 0 s) := by
  have hat : standsAt (line s) 0 p.text := hline ▸ standsAt_zero p.text comment
  have htoken := slice_token hat
  rw [Nat.zero_add] at htoken
  obtain ⟨t, ht⟩ := List.head?_eq_some_iff.mp hhead
  have hr := bodyValue_of_lit_none (w := effWidth wsel s.cfg) (l := line s)
    (htoken.symm ▸ hlit)
  rw [htoken, ht, rawParts_plus, sumParts_of_error (partValue_of_isWs (by simp [slice]))] at hr
  exact exec_eval_of_body_error h hlen hp hline htext (ht ▸ hr)

/-- Settles O34: the raw part of an empty part is whitespace only, or nothing before the '+' that
the text begins with. -/
theorem evalOfAnEmptyPart : Obligations.EvalOfAnEmptyPart := by
  unfold Obligations.EvalOfAnEmptyPart
  intro wsel s good ws tail comment w gate h hlen hws
  refine ⟨fun hne hgood htail hline htext => ?later, fun hline htext hlit => ?first⟩
  case later =>
    rw [joinParts_append_plus hne, List.append_assoc (plusParts good)] at hline htext
    have hpos : (joinParts good).length + 1 = (plusParts good).length := by
      rw [← joinParts_append_plus hne, List.length_append, List.length_singleton]
    have hat : standsAt (line s) 0 (plusParts good ++ (ws ++ tail)) :=
      hline ▸ standsAt_zero _ comment
    have hatws : slice _ _ _ = ws := (standsAt_append (standsAt_of_zero hat)).1
    rw [hpos]
    exact exec_eval_of_bad_part h hlen hgood (chPlus_not_mem_of_isWs hws) htail hline htext
      (.inl hne) (partValue_of_isWs (by rwa [hatws]))
  case first =>
    have hplus : Part.trimmed { before := ws, token := [chPlus], after := [] } :=
      ⟨hws, by simp, by simp, by simp [isWs_chPlus], by simp [isWs_chPlus]⟩
    obtain ⟨p, hp, hptext, rfl, hhead⟩ := exists_part_of_text_append hplus tail
    have hptext' : p.text = p.before ++ [chPlus] ++ tail := by
      rw [hptext]
      simp [Part.text]
    rw [← hptext'] at hline htext
    refine exec_eval_of_plus_first h hlen hp hline htext hhead ?_
    by_cases htok : p.token = [chPlus]
    · have htail : p.after = tail := by
        rw [Part.text, htok] at hptext'
        exact List.append_cancel_left hptext'
      obtain ⟨-, hafter, -⟩ := hp
      have hcode : charToCode s chPlus = none := hlit.resolve_left fun ⟨b, hb, hbws⟩ =>
        absurd (hafter b (htail ▸ hb)) (by rw [hbws]; decide)
      rw [htok, lit_byte _ _ (by decide), hcode]
      rfl
    · exact lit_of_plus_mem (List.mem_of_mem_head? hhead) htok

end Sys2Proof.Machine
end
